-- ==== Sys2Proof/Word.lean ====
section
/-! DEFINITION. The word of the Intcode core: a signed 64-bit integer (00_scope R7, §5). -/

namespace Sys2Proof

/-- A memory word and the content of `IP`, `RB`, `OUT` and `IN_DATA`: 64 bits, read as a signed
two's-complement integer through `toInt` (00_scope R7; 92 D26). -/
abbrev Word := BitVec 64

end Sys2Proof
end

