-- ==== Sys2Proof/Config.lean ====
section
/-! DEFINITION. What one realisation of the core fixes (00_scope R7). The spec leaves no free value:
93_implementation_defined gives each open point a fault, a refusal or a defined behaviour. -/

namespace Sys2Proof

/-- `WORD_BITS` (00_scope R7). -/
def Config.wordBits : Nat := 64

/-- `MODE_DIGITS` (00_scope R7). -/
def Config.modeDigits : Nat := 3

/-- `MEM_WORDS` of the core that `State.reset` describes: unbounded. The parameter is OPEN (20_memory R67,
92 D14), so it is the field `State.memWords` and every statement holds for all of its values.
DESIGN CHOICE (log entry 3), unsafe for a claim about `State.reset` alone. -/
def Config.resetMemWords : Option Nat := none

/-- `IN_DATA` after reset: the spec leaves it unspecified and no rule reads it while `IN_VALID = 0`
(10_state R43, 93 I12). DESIGN CHOICE (log entry 4), unsafe. -/
def Config.resetInData : Word := 0

end Sys2Proof
end

