-- ==== Sys2Proof/Syntax.lean ====
section
/-! DEFINITION. The instructions of the Intcode core as syntax: one constructor of `Instr` per row of the
opcode table (30_encoding R96, R97, R98), and the kinds of fault (10_state R40). -/

namespace Sys2Proof

/-- The parameter modes (30_encoding R93). -/
inductive Mode where
  /-- digit 0: the parameter is an address -/
  | position
  /-- digit 1: the parameter is the value -/
  | immediate
  /-- digit 2: the parameter plus the relative base is an address -/
  | relative
deriving DecidableEq, Repr

/-- The ten opcodes (30_encoding R96, R97). -/
inductive Opcode where
  | add | mul | inp | out | jt | jf | lt | eq | arb | halt
deriving DecidableEq, Repr

/-- A parameter word with the mode its digit gives it (30_encoding R90, R92). -/
structure Param where
  mode : Mode
  word : Word
deriving DecidableEq, Repr

/-- One instruction with its parameters (30_encoding R98). `dst` is a write target, every other parameter a
read operand. Mode digits of parameters an opcode lacks are ignored (R100) and have no place here. -/
inductive Instr where
  /-- opcode 1: `dst = a + b` (R131) -/
  | add (a b dst : Param)
  /-- opcode 2: `dst = a * b` (R132) -/
  | mul (a b dst : Param)
  /-- opcode 3: `dst` = the invocation's input (R140) -/
  | inp (dst : Param)
  /-- opcode 4: emit `a` (R141) -/
  | out (a : Param)
  /-- opcode 5: jump to `b` if `a ≠ 0` (R150) -/
  | jt (a b : Param)
  /-- opcode 6: jump to `b` if `a = 0` (R151) -/
  | jf (a b : Param)
  /-- opcode 7: `dst = 1` if `a < b`, else 0 (R160) -/
  | lt (a b dst : Param)
  /-- opcode 8: `dst = 1` if `a = b`, else 0 (R161) -/
  | eq (a b dst : Param)
  /-- opcode 9: `RB += a` (R170) -/
  | arb (a : Param)
  /-- opcode 99: terminate (R171) -/
  | halt
deriving DecidableEq, Repr

/-- The value of `FAULT_KIND` (10_state R40, 60_exceptions R210). Code 7 is reserved and never written
(93 I17), so it has no constructor. -/
inductive FaultKind where
  /-- code 0, `None`: the value while `FAULTED = 0` -/
  | noFault
  /-- code 1: a negative address (R211) -/
  | invalidAddress
  /-- code 2: an Immediate write target (R212) -/
  | invalidWriteTarget
  /-- code 3: an opcode outside the set or a negative instruction word (R213) -/
  | unknownOpcode
  /-- code 4: a mode digit above 2 or a digit above digit 4 (R214) -/
  | invalidMode
  /-- code 5: a result outside the Word range (R215) -/
  | arithmeticOverflow
  /-- code 6: an address at or beyond `MEM_WORDS` (R216) -/
  | outOfStorage
deriving DecidableEq, Repr

end Sys2Proof
end

