-- ==== Sys2Proof/WellFormed.lean ====
section
/-! DEFINITION. Which instructions are legal as the spec's table of formats has them (30_encoding R99, R110):
a write target is Position or Relative; a read operand may have any mode. -/

namespace Sys2Proof

/-- A write target's mode digit is 0 or 2 (30_encoding R99, R110). -/
def Param.isTarget (p : Param) : Bool :=
  match p.mode with
  | .position => true
  | .immediate => false
  | .relative => true

/-- No write target is Immediate (30_encoding R99). An instruction that fails this check still decodes and
raises `InvalidWriteTarget` when it runs (60_exceptions R212). -/
def Instr.wellFormed : Instr → Bool
  | .add _ _ dst => dst.isTarget
  | .mul _ _ dst => dst.isTarget
  | .inp dst => dst.isTarget
  | .out _ => true
  | .jt _ _ => true
  | .jf _ _ => true
  | .lt _ _ dst => dst.isTarget
  | .eq _ _ dst => dst.isTarget
  | .arb _ => true
  | .halt => true

end Sys2Proof
end

