-- ==== Sys2Proof/Decode.lean ====
section
/-! DEFINITION. The instruction decoder (30_encoding R91-R100, R105) and, after it, the encoder (R109). Fields are
decimal digits of the instruction word, digit 0 the units digit (00_scope §5). -/

namespace Sys2Proof

/-- `digit(w, k) = (w div 10^k) mod 10` (00_scope §5). -/
def digit (w k : Nat) : Nat := w / 10 ^ k % 10

/-- The mode a digit stands for, if it stands for one (30_encoding R93, R94). -/
def Mode.ofDigit? : Nat → Option Mode
  | 0 => some .position
  | 1 => some .immediate
  | 2 => some .relative
  | _ => none

/-- The digit of a mode (30_encoding R93). -/
def Mode.toDigit : Mode → Nat
  | .position => 0
  | .immediate => 1
  | .relative => 2

/-- The opcode a two-digit value stands for, if it is one of the ten (30_encoding R96). -/
def Opcode.ofCode? : Nat → Option Opcode
  | 1 => some .add
  | 2 => some .mul
  | 3 => some .inp
  | 4 => some .out
  | 5 => some .jt
  | 6 => some .jf
  | 7 => some .lt
  | 8 => some .eq
  | 9 => some .arb
  | 99 => some .halt
  | _ => none

/-- The two-digit value of an opcode (30_encoding R97). -/
def Opcode.toCode : Opcode → Nat
  | .add => 1
  | .mul => 2
  | .inp => 3
  | .out => 4
  | .jt => 5
  | .jf => 6
  | .lt => 7
  | .eq => 8
  | .arb => 9
  | .halt => 99

/-- How many parameter words follow the instruction word (30_encoding R97, R98). -/
def Opcode.params : Opcode → Nat
  | .add => 3
  | .mul => 3
  | .inp => 1
  | .out => 1
  | .jt => 2
  | .jf => 2
  | .lt => 3
  | .eq => 3
  | .arb => 1
  | .halt => 0

/-- `L`, the length in words, by the opcode alone (30_encoding R97, R107; 90 C1). -/
def Opcode.length (op : Opcode) : Nat := op.params + 1

/-- What the decoder reads from an instruction word: `{opcode, mode[1..3]}` (30_encoding R105). It is decoded
afresh at every fetch and never kept (R106). -/
structure Header where
  op : Opcode
  m1 : Mode
  m2 : Mode
  m3 : Mode
deriving DecidableEq, Repr

/-- The decoder, total on words: the header, or the fault of phase 2 or 3. A negative word and then the opcode
are checked before the modes (30_encoding R94, R95, R96, R105; R112 phases 2 and 3). -/
def decodeHeader (w : Word) : Except FaultKind Header :=
  if w.toInt < 0 then .error .unknownOpcode
  else
    let n := w.toInt.toNat
    match Opcode.ofCode? (n % 100) with
    | none => .error .unknownOpcode
    | some op =>
      if n / 100000 ≠ 0 then .error .invalidMode
      else
        match Mode.ofDigit? (digit n 2), Mode.ofDigit? (digit n 3), Mode.ofDigit? (digit n 4) with
        | some m1, some m2, some m3 => .ok ⟨op, m1, m2, m3⟩
        | _, _, _ => .error .invalidMode

/-- Phase 4: the write target's mode digit is Immediate (30_encoding R99, R112). -/
def Header.badTarget (h : Header) : Bool :=
  match h.op with
  | .add => decide (h.m3 = .immediate)
  | .mul => decide (h.m3 = .immediate)
  | .lt => decide (h.m3 = .immediate)
  | .eq => decide (h.m3 = .immediate)
  | .inp => decide (h.m1 = .immediate)
  | .out => false
  | .jt => false
  | .jf => false
  | .arb => false
  | .halt => false

/-- The instruction of a header and its parameter words; the mode digits of parameters the opcode lacks are
ignored (30_encoding R98, R100). -/
def Header.toInstr (h : Header) (ps : List Word) : Instr :=
  let a : Param := ⟨h.m1, ps.getD 0 0⟩
  let b : Param := ⟨h.m2, ps.getD 1 0⟩
  let c : Param := ⟨h.m3, ps.getD 2 0⟩
  match h.op with
  | .add => .add a b c
  | .mul => .mul a b c
  | .inp => .inp a
  | .out => .out a
  | .jt => .jt a b
  | .jf => .jf a b
  | .lt => .lt a b c
  | .eq => .eq a b c
  | .arb => .arb a
  | .halt => .halt

/-- Why a list of words holds no instruction at its head. -/
inductive DecodeError where
  /-- the instruction word raises this fault (30_encoding R105) -/
  | fault (k : FaultKind)
  /-- the list ends before the instruction's last word; memory never does (30_encoding R113) -/
  | truncated
deriving DecidableEq, Repr

/-- The instruction at the head of a list of words and the words after it (30_encoding R90, R107). An Immediate
write target decodes (95 V-D17, V-D18); it is `Instr.wellFormed` that refuses it. -/
def decode : List Word → Except DecodeError (Instr × List Word)
  | [] => .error .truncated
  | w :: ws =>
    match decodeHeader w with
    | .error k => .error (.fault k)
    | .ok h =>
      if ws.length < h.op.params then .error .truncated
      else .ok (h.toInstr ws, ws.drop h.op.params)

/-- The words of the host's table numbering: bit 0 is the least significant bit of the first word, each later
64-bit word counts on from it, and the bits above `nbits` are 0. Four words are the longest instruction. -/
def tableWords (nbits w : Nat) : List Word :=
  let v := w % 2 ^ nbits
  [BitVec.ofNat 64 v, BitVec.ofNat 64 (v / 2 ^ 64), BitVec.ofNat 64 (v / 2 ^ 128), BitVec.ofNat 64 (v / 2 ^ 192)]

/-- What the decoder reads from an instruction with the bits `w` (log entry 9). -/
def decodeTableWord (nbits w : Nat) : Option Instr :=
  match decode (tableWords nbits w) with
  | .ok (i, _) => some i
  | .error _ => none

/-- The canonical instruction word `op + 100·m1 + 1000·m2 + 10000·m3` (30_encoding R109). -/
def canonicalWord (op : Opcode) (m1 m2 m3 : Mode) : Word :=
  BitVec.ofNat 64 (op.toCode + 100 * m1.toDigit + 1000 * m2.toDigit + 10000 * m3.toDigit)

/-- An instruction's words: its canonical instruction word, the digits of absent parameters written 0, and then
its parameters in order (30_encoding R90, R109). -/
def encode : Instr → List Word
  | .add a b dst => [canonicalWord .add a.mode b.mode dst.mode, a.word, b.word, dst.word]
  | .mul a b dst => [canonicalWord .mul a.mode b.mode dst.mode, a.word, b.word, dst.word]
  | .inp dst => [canonicalWord .inp dst.mode .position .position, dst.word]
  | .out a => [canonicalWord .out a.mode .position .position, a.word]
  | .jt a b => [canonicalWord .jt a.mode b.mode .position, a.word, b.word]
  | .jf a b => [canonicalWord .jf a.mode b.mode .position, a.word, b.word]
  | .lt a b dst => [canonicalWord .lt a.mode b.mode dst.mode, a.word, b.word, dst.word]
  | .eq a b dst => [canonicalWord .eq a.mode b.mode dst.mode, a.word, b.word, dst.word]
  | .arb a => [canonicalWord .arb a.mode .position .position, a.word]
  | .halt => [canonicalWord .halt .position .position .position]

/-- The opcode of an instruction. -/
def Instr.opcode : Instr → Opcode
  | .add _ _ _ => .add
  | .mul _ _ _ => .mul
  | .inp _ => .inp
  | .out _ => .out
  | .jt _ _ => .jt
  | .jf _ _ => .jf
  | .lt _ _ _ => .lt
  | .eq _ _ _ => .eq
  | .arb _ => .arb
  | .halt => .halt

/-- `L` of an instruction (30_encoding R97). -/
def Instr.length (i : Instr) : Nat := i.opcode.length

end Sys2Proof
end

