-- ==== Sys2Proof/Machine/State.lean ====
section
/-! DEFINITION. The state of one Intcode core (10_state, 20_memory) with the host that drives it
(60_exceptions R230), as plain data. -/

namespace Sys2Proof.Machine

/-- `M[0..]`: address and word pairs, addresses strictly rising, no word 0. An address not listed reads 0, as
the spec says of a word never written (20_memory R61). The unit is the word: there is no byte view (R68). -/
abbrev Memory := List (Nat × Word)

/-- What an address not listed reads as (20_memory R61). -/
def unlistedWord : Word := 0

/-- The canonical form of memory: addresses strictly rising, and no entry equal to what an unlisted address
reads as. -/
def Memory.wf : Memory → Bool
  | [] => true
  | [(_, v)] => v ≠ unlistedWord
  | (a, v) :: (b, w) :: m => a < b && v ≠ unlistedWord && Memory.wf ((b, w) :: m)

/-- The outcome of an invocation (60_exceptions R201). -/
inductive InvokeOutcome where
  /-- an output instruction emitted `v` (41_io R141) -/
  | produced (v : Word)
  /-- opcode 99 was executed now or earlier (44_system R171) -/
  | halted
  /-- a fault occurred now or earlier (60_exceptions R210) -/
  | fault (k : FaultKind)
  /-- an input instruction found no value (41_io R140) -/
  | needInput
deriving DecidableEq, Repr

/-- What the host can ask of a core (60_exceptions R230). Program words, register numbers and addresses are as
the host sends them, so that a refusal can be shown (R231, R232). -/
inductive HostOp where
  /-- `Reset` (70_reset R260, R261) -/
  | reset
  /-- `Load(P)` (60_exceptions R231) -/
  | load (program : List Int)
  /-- `Invoke(v)` (60_exceptions R202) -/
  | invoke (v : Word)
  /-- `Inspect(r)` (60_exceptions R232) -/
  | inspect (r : Nat)
  /-- `InspectMem(a)` (60_exceptions R232) -/
  | inspectMem (a : Int)
deriving DecidableEq, Repr

/-- One move of the host. The spec lets the host act at any time (60_exceptions R230, R233), so a list of moves
is any behaviour of it, between instructions (R71). DESIGN CHOICE (log entry 5), safe. -/
inductive HostMove where
  /-- the host does nothing during this step -/
  | pause
  /-- the host issues the operation now, whether or not the core is busy -/
  | issue (op : HostOp)
  /-- the host waits until the core is idle and then issues the operation: the synchronous host of R233 -/
  | onIdle (op : HostOp)
deriving DecidableEq, Repr

/-- What the host gets back (60_exceptions R230). -/
inductive HostReply where
  /-- the outcome of an invocation (R201, R204) -/
  | outcome (o : InvokeOutcome)
  /-- the word an inspection returns (R232) -/
  | value (w : Word)
  /-- a refused operation (R230) -/
  | hostError
deriving DecidableEq, Repr

/-- The whole state. Every field but the last three is state the spec gives the core. -/
structure State where
  /-- `IP`, the next address to decode, a signed word (10_state R32) -/
  ip : Word
  /-- `RB`, the relative base (10_state R36) -/
  rb : Word
  /-- `HALTED` (10_state R38) -/
  halted : Bool
  /-- `FAULTED` (10_state R39) -/
  faulted : Bool
  /-- `FAULT_KIND` (10_state R40) -/
  faultKind : FaultKind
  /-- `OUT`, the last value emitted (10_state R42) -/
  out : Word
  /-- `IN_DATA`, the input latch's value (10_state R43) -/
  inData : Word
  /-- `IN_VALID`, whether the latch holds the invocation's value (10_state R43) -/
  inValid : Bool
  /-- `BUSY`, whether an invocation is running (10_state R44) -/
  busy : Bool
  /-- `MLEN`, the current memory length (20_memory R65) -/
  mlen : Nat
  /-- `M` (20_memory R60) -/
  mem : Memory
  /-- `MEM_WORDS`, `none` for unbounded (20_memory R67): a parameter, which no step changes -/
  memWords : Option Nat
  /-- the model's own: the host's coming moves, oldest first -/
  hostMoves : List HostMove
  /-- the model's own: what the host has been given back, newest first -/
  hostInbox : List HostReply
deriving DecidableEq, Repr

/-- The reasons for which a step stops outside the spec's own rules: there are none. Every fault of the spec has
an entry the spec describes (60_exceptions R217), which the model takes as a next state, so this type has no
constructor and nobody raises it; safe. -/
inductive Fault where
deriving DecidableEq, Repr

/-- The instructions and forms without a meaning. -/
inductive Refusal where
  /-- raised by an arm of `exec` whose instruction has no meaning yet: no arm is left that does; safe -/
  | notModelled (mnemonic : String)
deriving DecidableEq, Repr

/-- The machine right after reset, which is Load of the empty program (70_reset R260). `inData` and `memWords`
hold values the spec does not give (log entries 4 and 3); no host is waiting (log entry 5). -/
def State.reset : State where
  ip := 0
  rb := 0
  halted := false
  faulted := false
  faultKind := .noFault
  out := 0
  inData := Config.resetInData
  inValid := false
  busy := false
  mlen := 0
  mem := []
  memWords := Config.resetMemWords
  hostMoves := []
  hostInbox := []

end Sys2Proof.Machine
end

