-- ==== Sys2Proof/Machine/Flags.lean ====
section
/-! DEFINITION. The run status, the codes and the STATUS layout (10_state R37, R40, R41; 60_exceptions R201), and the
range check that stands where other machines have carry and overflow flags (40_arithmetic R130). -/

namespace Sys2Proof.Machine

/-- `fits64(v)`: the exact integer is a Word (00_scope §5). -/
def fits64 (v : Int) : Bool := -2 ^ 63 ≤ v && v ≤ 2 ^ 63 - 1

/-- The Word that an exact integer is, if it is one: nothing wraps, saturates or truncates (40_arithmetic R130). -/
def narrow? (v : Int) : Option Word :=
  if fits64 v then some (BitVec.ofInt 64 v) else none

/-- The numeric code of a fault kind (10_state R40). -/
def faultCode : FaultKind → BitVec 3
  | .noFault => 0
  | .invalidAddress => 1
  | .invalidWriteTarget => 2
  | .unknownOpcode => 3
  | .invalidMode => 4
  | .arithmeticOverflow => 5
  | .outOfStorage => 6

/-- The numeric code of an outcome (60_exceptions R201). -/
def outcomeCode : InvokeOutcome → BitVec 2
  | .produced _ => 0
  | .halted => 1
  | .fault _ => 2
  | .needInput => 3

/-- `STATUS`: bit 0 `HALTED`, bit 1 `FAULTED`, bits 6:4 `FAULT_KIND`, every other bit 0 (10_state R41). -/
def statusWord (s : State) : Word :=
  (0 : BitVec 57) ++ faultCode s.faultKind ++ (0 : BitVec 2) ++ BitVec.ofBool s.faulted ++ BitVec.ofBool s.halted

/-- The three-valued run status (10_state R37). -/
inductive RunStatus where
  | running
  | halted
  | faulted
deriving DecidableEq, Repr

/-- The run status the two flags encode; both set never occurs (10_state R37). -/
def runStatus (s : State) : Option RunStatus :=
  match s.halted, s.faulted with
  | false, false => some .running
  | true, false => some .halted
  | false, true => some .faulted
  | true, true => none

/-- The result word of a comparison: 1 or 0, since there are no condition codes (43_compare R160, R161). -/
def truthValue (b : Bool) : Int := if b then 1 else 0

end Sys2Proof.Machine
end

