-- ==== Sys2Proof/Machine/Ops.lean ====
section
/-! DEFINITION. The named operations over the state: memory (20_memory R63-R65), the checked sum (40_arithmetic R130),
the stop of an invocation (60_exceptions R204) and fault entry (R217). -/

namespace Sys2Proof.Machine

/-- What a phase of an instruction gives (30_encoding R112): a value with the state after it, or the fault it raises
with the state at that point. A fault keeps the state so that auto-extension by the reads before it is kept
(60_exceptions R218). -/
inductive Res (α : Type) where
  | ok (a : α) (s : State)
  | raise (k : FaultKind) (s : State)
deriving DecidableEq, Repr

/-- Phases in order: the first fault raised ends the instruction, later phases do not run (30_encoding R112). -/
def Res.bind {α β : Type} : Res α → (α → State → Res β) → Res β
  | .ok a s, f => f a s
  | .raise k s, _ => .raise k s

/-! ## Memory -/

/-- The word memory holds at an address: 0 where nothing is listed (20_memory R61). -/
def readCell : Memory → Nat → Word
  | [], _ => unlistedWord
  | (b, w) :: m, a => if a < b then unlistedWord else if a = b then w else readCell m a

/-- Memory after a word is written; a written 0 removes the entry, which keeps the canonical form. -/
def writeCell : Memory → Nat → Word → Memory
  | [], a, v => if v = unlistedWord then [] else [(a, v)]
  | (b, w) :: m, a, v =>
    if a < b then (if v = unlistedWord then (b, w) :: m else (a, v) :: (b, w) :: m)
    else if a = b then (if v = unlistedWord then m else (a, v) :: m)
    else (b, w) :: writeCell m a v

/-- Memory that holds the words in order from an address on, and 0 elsewhere (20_memory R62). -/
def cellsFrom : Nat → List Word → Memory
  | _, [] => []
  | a, w :: ws => if w = unlistedWord then cellsFrom (a + 1) ws else (a, w) :: cellsFrom (a + 1) ws

/-- The address lies below `MEM_WORDS` (20_memory R67). -/
def inCapacity (memWords : Option Nat) (a : Nat) : Bool :=
  match memWords with
  | none => true
  | some n => a < n

/-- The fault of an access at an address, if any: negative before beyond the capacity (20_memory R63, R64). -/
def addressFault (memWords : Option Nat) (a : Int) : Option FaultKind :=
  if a < 0 then some .invalidAddress
  else if inCapacity memWords a.toNat then none
  else some .outOfStorage

/-- Auto-extension: an access at or beyond `MLEN` sets `MLEN` to the address plus one (20_memory R65). -/
def extend (a : Nat) (s : State) : State :=
  { s with mlen := if s.mlen ≤ a then a + 1 else s.mlen }

/-- `MemRead(a, 1)` (20_memory R63). -/
def memRead (a : Int) (s : State) : Res Word :=
  match addressFault s.memWords a with
  | some k => .raise k s
  | none => .ok (readCell s.mem a.toNat) (extend a.toNat s)

/-- `MemWrite(a, 1, v)` (20_memory R64). -/
def memWrite (a : Int) (v : Word) (s : State) : Res Unit :=
  match addressFault s.memWords a with
  | some k => .raise k s
  | none => .ok () { extend a.toNat s with mem := writeCell s.mem a.toNat v }

/-! ## Checked arithmetic -/

/-- An exact integer as a Word, or `ArithmeticOverflow` (40_arithmetic R130, 60_exceptions R215). -/
def narrow (v : Int) (s : State) : Res Word :=
  match narrow? v with
  | some w => .ok w s
  | none => .raise .arithmeticOverflow s

/-- `IP + L`, which does not wrap (10_state R34, R35). -/
def nextIp (len : Nat) (s : State) : Res Word := narrow (s.ip.toInt + len) s

/-! ## Stops and faults -/

/-- A stop: the input latch and `BUSY` are cleared and the outcome goes to the host; all else is the checkpoint
(60_exceptions R203, R204; 10_state R45). -/
def stop (o : InvokeOutcome) (s : State) : State :=
  { s with inValid := false, busy := false, hostInbox := .outcome o :: s.hostInbox }

/-- Fault entry, the one way a fault is taken: `FAULTED` and `FAULT_KIND` are set and the invocation stops. No
handler runs, nothing is saved, `IP` stays at the faulting instruction (60_exceptions R217, R218). -/
def enterFault (k : FaultKind) (s : State) : State :=
  stop (.fault k) { s with faulted := true, faultKind := k }

/-- There is no return from a fault by the core. The one way back is the host's Load or Reset, which puts every
register to its reset value and the words at address 0 on (60_exceptions R219, R231; 70_reset R260). The capacity
is the core's own and the host's moves and inbox are the host's: they stay. -/
def loaded (ws : List Word) (s : State) : State :=
  { State.reset with
    mem := cellsFrom 0 ws
    mlen := ws.length
    memWords := s.memWords
    hostMoves := s.hostMoves
    hostInbox := s.hostInbox }

/-- The end of an instruction: its last phase's state, or fault entry (30_encoding R112, 60_exceptions R217). -/
def complete : Res Unit → Host.Outcome State Fault Refusal
  | .ok _ s => .next s
  | .raise k s => .next (enterFault k s)

end Sys2Proof.Machine
end

