-- ==== Sys2Proof/Machine/Operands.lean ====
section
/-! DEFINITION. The operand forms: the three modes of a read operand and the two of a write target
(30_encoding R99, R101-R104). -/

namespace Sys2Proof.Machine

/-- The address a Position or Relative parameter designates, as an exact integer: `p` or `p + RB`, with no wrap
(30_encoding R103, R104; 92 D15). An Immediate parameter designates none. -/
def effectiveAddress (p : Param) (s : State) : Option Int :=
  match p.mode with
  | .position => some p.word.toInt
  | .immediate => none
  | .relative => some (p.word.toInt + s.rb.toInt)

/-- `ReadOperand(k)`: the word at the effective address, or the parameter itself (30_encoding R101, R102, R103). -/
def readOperand (p : Param) (s : State) : Res Word :=
  match effectiveAddress p s with
  | none => .ok p.word s
  | some a => memRead a s

/-- Phase 4: an Immediate write target faults before any parameter is used (30_encoding R99, R112). -/
def checkTarget (p : Param) (s : State) : Res Unit :=
  if p.isTarget then .ok () s else .raise .invalidWriteTarget s

/-- `WriteAddress(k)`: the target's address, checked, with no access (30_encoding R104). An Immediate target was
refused by phase 4; the operation refuses it too, so that it is total. -/
def writeAddress (p : Param) (s : State) : Res Int :=
  match effectiveAddress p s with
  | none => .raise .invalidWriteTarget s
  | some a =>
    match addressFault s.memWords a with
    | some k => .raise k s
    | none => .ok a s

/-- Phases 4 and 6 to 9 of an instruction of format F3: both operands are read, the target resolved, the exact
result and `IP + 4` checked, and then the one write made (30_encoding R112, R114; 40_arithmetic R131). -/
def computeAndStore (f : Word → Word → Int) (a b dst : Param) (s : State) : Res Unit :=
  (checkTarget dst s).bind fun _ s =>
  (readOperand a s).bind fun x s =>
  (readOperand b s).bind fun y s =>
  (writeAddress dst s).bind fun d s =>
  (narrow (f x y) s).bind fun r s =>
  (nextIp 4 s).bind fun next s =>
  (memWrite d r s).bind fun _ s =>
  .ok () { s with ip := next }

/-- Phases 6, 8 and 9 of an instruction of format F2: both operands are read, and a true condition loads `IP` with
the second exactly (42_jump R150, R151, R152). -/
def jumpWhen (cond : Word → Bool) (a b : Param) (s : State) : Res Unit :=
  (readOperand a s).bind fun x s =>
  (readOperand b s).bind fun target s =>
  if cond x then .ok () { s with ip := target }
  else
    (nextIp 3 s).bind fun next s =>
    .ok () { s with ip := next }

end Sys2Proof.Machine
end

