-- ==== Sys2Proof/Machine/Arithmetic.lean ====
section
/-! DEFINITION. The meanings of add and multiply (40_arithmetic). -/

namespace Sys2Proof.Machine

/-- `add`: `dst = a + b`, exact, or `ArithmeticOverflow` (40_arithmetic R131). -/
def execAdd (a b dst : Param) (s : State) : Host.Outcome State Fault Refusal :=
  complete (computeAndStore (fun x y => x.toInt + y.toInt) a b dst s)

/-- `multiply`: `dst = a * b`, exact, or `ArithmeticOverflow` (40_arithmetic R132). -/
def execMul (a b dst : Param) (s : State) : Host.Outcome State Fault Refusal :=
  complete (computeAndStore (fun x y => x.toInt * y.toInt) a b dst s)

end Sys2Proof.Machine
end

