-- ==== Sys2Proof/Machine/Compare.lean ====
section
/-! DEFINITION. The meanings of less-than and equals (43_compare). -/

namespace Sys2Proof.Machine

/-- `less-than`: `dst = 1` if `a < b` as signed words, else 0; the result is always a Word (43_compare R160). -/
def execLt (a b dst : Param) (s : State) : Host.Outcome State Fault Refusal :=
  complete (computeAndStore (fun x y => truthValue (x.toInt < y.toInt)) a b dst s)

/-- `equals`: `dst = 1` if the whole words are equal, else 0; the result is always a Word (43_compare R161). -/
def execEq (a b dst : Param) (s : State) : Host.Outcome State Fault Refusal :=
  complete (computeAndStore (fun x y => truthValue (x.toInt = y.toInt)) a b dst s)

end Sys2Proof.Machine
end

