-- ==== Sys2Proof/Machine/InputOutput.lean ====
section
/-! DEFINITION. The meanings of input and output (41_io). -/

namespace Sys2Proof.Machine

/-- `input`: the target is checked first; with no value left in the latch the invocation stops with `NeedInput` and
nothing changes; else the value is consumed and stored (41_io R140). -/
def execInp (dst : Param) (s : State) : Host.Outcome State Fault Refusal :=
  complete (
    (checkTarget dst s).bind fun _ s =>
    (writeAddress dst s).bind fun d s =>
    if s.inValid then
      (nextIp 2 s).bind fun next s =>
      (memWrite d s.inData { s with inValid := false }).bind fun _ s =>
      .ok () { s with ip := next }
    else .ok () (stop .needInput s))

/-- `output`: `OUT` holds the value, `IP` is past the instruction, and the invocation stops with `Produced(a)`
(41_io R141). -/
def execOut (a : Param) (s : State) : Host.Outcome State Fault Refusal :=
  complete (
    (readOperand a s).bind fun x s =>
    (nextIp 2 s).bind fun next s =>
    .ok () (stop (.produced x) { s with out := x, ip := next }))

end Sys2Proof.Machine
end

