-- ==== Sys2Proof/Machine/Jump.lean ====
section
/-! DEFINITION. The meanings of the two conditional jumps (42_jump). -/

namespace Sys2Proof.Machine

/-- `jump-if-true`: any word but 0 is true (42_jump R150). -/
def execJt (a b : Param) (s : State) : Host.Outcome State Fault Refusal :=
  complete (jumpWhen (fun x => x != 0) a b s)

/-- `jump-if-false`: only 0 is false (42_jump R151). -/
def execJf (a b : Param) (s : State) : Host.Outcome State Fault Refusal :=
  complete (jumpWhen (fun x => x == 0) a b s)

end Sys2Proof.Machine
end

