-- ==== Sys2Proof/Machine/System.lean ====
section
/-! DEFINITION. The meanings of adjust-relative-base and halt (44_system). -/

namespace Sys2Proof.Machine

/-- `adjust-relative-base`: the operand is read with the old `RB`; the sum is exact or `ArithmeticOverflow`
(44_system R170). -/
def execArb (a : Param) (s : State) : Host.Outcome State Fault Refusal :=
  complete (
    (readOperand a s).bind fun x s =>
    (narrow (s.rb.toInt + x.toInt) s).bind fun r s =>
    (nextIp 2 s).bind fun next s =>
    .ok () { s with rb := r, ip := next })

/-- `halt`: `IP` is past the instruction, `HALTED` is set and the invocation stops with `Halted` (44_system R171). -/
def execHalt (s : State) : Host.Outcome State Fault Refusal :=
  complete (
    (nextIp 1 s).bind fun next s =>
    .ok () (stop .halted { s with ip := next, halted := true }))

end Sys2Proof.Machine
end

