-- ==== Sys2Proof/Machine/Fetch.lean ====
section
/-! DEFINITION. Fetching an instruction: phases 1 to 5 of `Step` (30_encoding R112). -/

namespace Sys2Proof.Machine

/-- The next `n` words from an address on, in increasing address (30_encoding R112 phase 5, R114). -/
def fetchWords : Nat → Int → State → Res (List Word)
  | 0, _, s => .ok [] s
  | n + 1, a, s =>
    (memRead a s).bind fun w s =>
    (fetchWords n (a + 1) s).bind fun ws s =>
    .ok (w :: ws) s

/-- Phases 1 to 5: fetch the instruction word, check opcode and modes, check the write target's mode, and only
then fetch the parameters (30_encoding R112, R107, R113). -/
def fetchInstr (s : State) : Res Instr :=
  (memRead s.ip.toInt s).bind fun w s =>
  match decodeHeader w with
  | .error k => .raise k s
  | .ok h =>
    if h.badTarget then .raise .invalidWriteTarget s
    else
      (fetchWords h.op.params (s.ip.toInt + 1) s).bind fun ps s =>
      .ok (h.toInstr ps) s

/-- The words at an address on, written there as far as the capacity goes: what a Load of them at that place would
leave in memory (20_memory R62, R67). -/
def placeWords : Nat → List Word → State → State
  | _, [], s => s
  | a, w :: ws, s =>
    placeWords (a + 1) ws
      (if inCapacity s.memWords a then { extend a s with mem := writeCell s.mem a w } else s)

/-- The state in which an invocation of a Running core is under way, with its value in the latch and the host
waiting: what `Invoke` leaves (60_exceptions R202). -/
def invocationStarted (s : State) : State :=
  { s with
    halted := false
    faulted := false
    faultKind := .noFault
    inValid := true
    busy := true
    hostMoves := [] }

end Sys2Proof.Machine
end

