-- ==== Sys2Proof/Machine/HostInterface.lean ====
section
/-! DEFINITION. The host's operations (60_exceptions R202, R230-R233; 70_reset R260, R261). Each gives the state
after it, with what the host gets back at the head of its inbox. -/

namespace Sys2Proof.Machine

/-- Something is given back to the host. -/
def reply (r : HostReply) (s : State) : State :=
  { s with hostInbox := r :: s.hostInbox }

/-- A refused operation: it changes nothing of the core and returns a host error (60_exceptions R230). -/
def refuse (s : State) : State := reply .hostError s

/-- `Reset`: Load of the empty program, at any time; a running invocation is abandoned and delivers no outcome
(70_reset R260, R261). -/
def hostReset (s : State) : State := loaded [] s

/-- The preconditions of Load on the program itself: every word is a Word and the program fits the memory
(60_exceptions R231, 20_memory R67). -/
def loadable (memWords : Option Nat) (program : List Int) : Bool :=
  program.all fits64 &&
    match memWords with
    | none => true
    | some n => program.length ≤ n

/-- `Load(P)` while idle (60_exceptions R231, 70_reset R260). -/
def hostLoad (program : List Int) (s : State) : State :=
  if loadable s.memWords program then loaded (program.map (BitVec.ofInt 64)) s else refuse s

/-- `Invoke(v)` while idle: a Halted or Faulted core answers at once and nothing changes; a Running core starts an
invocation (60_exceptions R202, R219). -/
def hostInvoke (v : Word) (s : State) : State :=
  if s.halted then reply (.outcome .halted) s
  else if s.faulted then reply (.outcome (.fault s.faultKind)) s
  else { s with inData := v, inValid := true, busy := true }

/-- The register with an Inspect number (10_state R41). -/
def inspectRegister (r : Nat) (s : State) : Option Word :=
  match r with
  | 0 => some s.ip
  | 1 => some s.rb
  | 2 => some (statusWord s)
  | 3 => some s.out
  | _ => none

/-- `Inspect(r)` while idle; a reserved number is refused (60_exceptions R232). -/
def hostInspect (r : Nat) (s : State) : State :=
  match inspectRegister r s with
  | some w => reply (.value w) s
  | none => refuse s

/-- `InspectMem(a)` while idle: no auto-extension; an address outside the memory is refused (60_exceptions R232,
20_memory R79). -/
def hostInspectMem (a : Int) (s : State) : State :=
  match addressFault s.memWords a with
  | some _ => refuse s
  | none => reply (.value (readCell s.mem a.toNat)) s

/-- The host issues an operation: all but Reset are refused while `BUSY = 1` (60_exceptions R230, R233; 10_state
R44). -/
def hostIssue (op : HostOp) (s : State) : State :=
  match op with
  | .reset => hostReset s
  | .load p => if s.busy then refuse s else hostLoad p s
  | .invoke v => if s.busy then refuse s else hostInvoke v s
  | .inspect r => if s.busy then refuse s else hostInspect r s
  | .inspectMem a => if s.busy then refuse s else hostInspectMem a s

end Sys2Proof.Machine
end

