-- ==== Sys2Proof/Machine/Cycle.lean ====
section
/-! DEFINITION. What one step does: one whole instruction of a busy core (00_scope R8), or one operation of the host
between instructions (20_memory R71), or nothing while the core is idle (60_exceptions R253). -/

namespace Sys2Proof.Machine

/-- `Step` (30_encoding R112): fetch and decode, then run; a fault of the fetch is taken like any other. -/
def stepInstr (s : State) : Host.Outcome State Fault Refusal :=
  match fetchInstr s with
  | .ok i s' => exec i s'
  | .raise k s' => .next (enterFault k s')

/-- The core's own step: an instruction while busy, nothing while idle (10_state R44, 60_exceptions R253). -/
def stepCore (s : State) : Host.Outcome State Fault Refusal :=
  if s.busy then stepInstr s else .next s

/-- The operation the host's next move issues in this state, if any: a synchronous host waits for the core to be
idle (60_exceptions R233). -/
def servedOp (s : State) : Option HostOp :=
  match s.hostMoves with
  | [] => none
  | .pause :: _ => none
  | .issue op :: _ => some op
  | .onIdle op :: _ => if s.busy then none else some op

/-- The state with the host's next move taken; a synchronous host's operation stays while the core is busy. -/
def takeMove (s : State) : State :=
  match s.hostMoves with
  | [] => s
  | .pause :: rest => { s with hostMoves := rest }
  | .issue _ :: rest => { s with hostMoves := rest }
  | .onIdle _ :: rest => if s.busy then s else { s with hostMoves := rest }

/-- One step of the core and its host (log entry 5). With no move left the host does nothing more, and the core runs
on, for ever if its program never stops (60_exceptions R207). -/
def stepSystem (s : State) : Host.Outcome State Fault Refusal :=
  match servedOp s with
  | some op => .next (hostIssue op (takeMove s))
  | none => stepCore (takeMove s)

/-- An instruction's words at `IP` and an invocation under way, so that the very next step runs it: it stands for the
host's Load and Invoke (log entry 8). -/
def withWordsAtIp (ws : List Word) (s : State) : State :=
  placeWords s.ip.toInt.toNat ws (invocationStarted s)

end Sys2Proof.Machine
end

