-- ==== Sys2Proof/Machine/Step.lean ====
section
/-! DEFINITION. The step of the machine and the placing of an instruction for it. -/

namespace Sys2Proof.Machine

/-- One step (00_scope R8). -/
def step (s : State) : Host.Outcome State Fault Refusal := stepSystem s

/-- The state in which the very next step runs the instruction with the bits `w` (log entries 8 and 9). -/
def State.withFetchWord (s : State) (nbits w : Nat) : State := withWordsAtIp (tableWords nbits w) s

end Sys2Proof.Machine
end

