-- ==== Sys2Proof/Machine/Assembly.lean ====
section
/-! DEFINITION. The spec's own assembler notation and pseudo-instructions (30_encoding R115, R116). It binds no
toolchain: the words are the program (92 D24). -/

namespace Sys2Proof.Machine

/-- A number in a source line: a literal, or the address a label stands for (30_encoding R115). -/
inductive AsmNumber where
  | lit (n : Int)
  | label (name : String)
deriving DecidableEq, Repr

/-- An operand: `n` is Immediate, `[n]` Position, `[rb+n]` and `[rb-n]` Relative (30_encoding R115). DESIGN CHOICE (log
entry 20): a label is accepted in a Relative operand too, where R115 gives only `name` and `[name]`; its address is then
the offset. -/
structure AsmOperand where
  mode : Mode
  number : AsmNumber
deriving DecidableEq, Repr

/-- A source line (30_encoding R115, R116). -/
inductive AsmLine where
  /-- `name:` -/
  | label (name : String)
  /-- `mnemonic op1, op2, op3` -/
  | instr (op : Opcode) (operands : List AsmOperand)
  /-- `jmp T`, which is `jt 1, T` (R116) -/
  | jmp (target : AsmOperand)
  /-- `mov A, D`, which is `add A, 0, D` (R116) -/
  | mov (a d : AsmOperand)
  /-- `.word v1, v2, …`; DESIGN CHOICE (log entry 20): the words are literals, not labels -/
  | words (vs : List Int)
deriving DecidableEq, Repr

/-- A pseudo-instruction as its base form (30_encoding R116). -/
def expandLine : AsmLine → AsmLine
  | .jmp target => .instr .jt [⟨.immediate, .lit 1⟩, target]
  | .mov a d => .instr .add [a, ⟨.immediate, .lit 0⟩, d]
  | .label name => .label name
  | .instr op operands => .instr op operands
  | .words vs => .words vs

/-- How many words a line assembles to. -/
def lineSize : AsmLine → Nat
  | .label _ => 0
  | .instr op _ => op.length
  | .jmp _ => Opcode.jt.length
  | .mov _ _ => Opcode.add.length
  | .words vs => vs.length

/-- The labels of a program with the address of the next word (30_encoding R115). -/
def labelsFrom : Nat → List AsmLine → List (String × Nat)
  | _, [] => []
  | a, line :: rest =>
    match line with
    | .label name => (name, a) :: labelsFrom a rest
    | _ => labelsFrom (a + lineSize line) rest

/-- The word of a number. DESIGN CHOICE (log entry 20), where R115 is silent: a label declared more than once stands for
its first declaration, and a label that is not declared, or a number that is no Word, does not assemble. -/
def asmWord (labels : List (String × Nat)) : AsmNumber → Option Word
  | .lit n => narrow? n
  | .label name =>
    match labels.lookup name with
    | some a => narrow? a
    | none => none

/-- The mode of an operand that may be absent: an absent parameter's digit is written 0 (30_encoding R109). -/
def operandMode (operands : List AsmOperand) (k : Nat) : Mode :=
  match operands[k]? with
  | some o => o.mode
  | none => .position

/-- The words of a line: an instruction's canonical word and its parameters (30_encoding R109, R115). DESIGN CHOICE (log
entry 20): a line with another number of operands than its opcode has does not assemble, and a label in a Relative operand
gives its address as the offset. -/
def assembleLine (labels : List (String × Nat)) (line : AsmLine) : Option (List Word) :=
  match expandLine line with
  | .label _ => some []
  | .words vs => vs.mapM narrow?
  | .instr op operands =>
    if operands.length = op.params then
      match operands.mapM fun o => asmWord labels o.number with
      | some ps =>
        some (canonicalWord op (operandMode operands 0) (operandMode operands 1) (operandMode operands 2) :: ps)
      | none => none
    else none
  | .jmp _ => none
  | .mov _ _ => none

/-- A program's words (30_encoding R115). -/
def assemble (lines : List AsmLine) : Option (List Word) :=
  match lines.mapM (assembleLine (labelsFrom 0 lines)) with
  | some wss => some wss.flatten
  | none => none

/-- The mnemonic of an opcode (30_encoding R115). -/
def mnemonic : Opcode → String
  | .add => "add"
  | .mul => "mul"
  | .inp => "in"
  | .out => "out"
  | .jt => "jt"
  | .jf => "jf"
  | .lt => "lt"
  | .eq => "eq"
  | .arb => "arb"
  | .halt => "halt"

/-- An operand in the notation of 30_encoding R115. -/
def operandText (p : Param) : String :=
  match p.mode with
  | .position => "[" ++ toString p.word.toInt ++ "]"
  | .immediate => toString p.word.toInt
  | .relative =>
    if p.word.toInt < 0 then "[rb" ++ toString p.word.toInt ++ "]" else "[rb+" ++ toString p.word.toInt ++ "]"

/-- An instruction's parameters in order (30_encoding R97). -/
def operands : Instr → List Param
  | .add a b dst => [a, b, dst]
  | .mul a b dst => [a, b, dst]
  | .inp dst => [dst]
  | .out a => [a]
  | .jt a b => [a, b]
  | .jf a b => [a, b]
  | .lt a b dst => [a, b, dst]
  | .eq a b dst => [a, b, dst]
  | .arb a => [a]
  | .halt => []

/-- The disassembler: an instruction as `mnemonic op1, op2, op3`, always in its base form (30_encoding R115, R116). -/
def disassemble (i : Instr) : String :=
  match operands i with
  | [] => mnemonic i.opcode
  | ps => mnemonic i.opcode ++ " " ++ ", ".intercalate (ps.map operandText)

end Sys2Proof.Machine
end

