-- ==== Sys2Proof/Machine/Invocation.lean ====
section
/-! DEFINITION. Whole invocations (60_exceptions R200-R207) and runs (R223), over the core's own step. An invocation
that never stops has no outcome: a run cut off by the bound is `none`, never a stop (R207, 92 D29). -/

namespace Sys2Proof.Machine

/-- `repeat Step() until a stop` (60_exceptions R202), at most `n` instructions: the idle state it stops in, or
`none` while it is still running. -/
def runUntilStop : Nat → State → Option State
  | 0, s => if s.busy then none else some s
  | n + 1, s =>
    if s.busy then
      match stepInstr s with
      | .next t => runUntilStop n t
      | .fault _ => none
      | .refused _ => none
    else some s

/-- The outcome delivered last (60_exceptions R204). -/
def deliveredOutcome (s : State) : Option InvokeOutcome :=
  match s.hostInbox with
  | .outcome o :: _ => some o
  | _ => none

/-- `Invoke(v)` of an idle core, carried to its stop within `n` instructions: the outcome and the state it leaves
(60_exceptions R200, R202). -/
def invokeWithin (n : Nat) (v : Word) (s : State) : Option (InvokeOutcome × State) :=
  match runUntilStop n (hostInvoke v s) with
  | none => none
  | some t =>
    match deliveredOutcome t with
    | none => none
    | some o => some (o, t)

/-- The host's invocations with the values it supplies, in order: what they return and the state they leave
(60_exceptions R206, 70_reset R264). -/
def invokeAll (n : Nat) : List Word → State → Option (List InvokeOutcome × State)
  | [], s => some ([], s)
  | v :: vs, s =>
    match invokeWithin n v s with
    | none => none
    | some (o, t) =>
      match invokeAll n vs t with
      | none => none
      | some (os, u) => some (o :: os, u)

/-- `Invoke(v)` of an idle core returns an outcome and leaves a state (60_exceptions R200). -/
def Invokes (v : Word) (s : State) (o : InvokeOutcome) (t : State) : Prop :=
  s.busy = false ∧ ∃ n, invokeWithin n v s = some (o, t)

/-- An invocation under way that never reaches a stop: an infinite execution (60_exceptions R207). -/
def NeverStops (s : State) : Prop := ∀ n, runUntilStop n s = none

/-- The outcome leaves the core in a terminal status (60_exceptions R201, R219). -/
def InvokeOutcome.isTerminal : InvokeOutcome → Bool
  | .produced _ => false
  | .halted => true
  | .fault _ => true
  | .needInput => false

/-- A sequence of invocations, with what each returns. -/
inductive Invocations : State → List InvokeOutcome → State → Prop where
  | none (s : State) : Invocations s [] s
  | more {v : Word} {s t u : State} {o : InvokeOutcome} {os : List InvokeOutcome} :
      Invokes v s o t → Invocations t os u → Invocations s (o :: os) u

/-- A run: an accepted Load of an idle core, and the invocations from it to the first that returns `Halted` or
`Fault(kind)` (60_exceptions R223). A refused Load has no run (R231, 92 D27). -/
def IsRun (program : List Int) (core : State) (os : List InvokeOutcome) (last : InvokeOutcome) (t : State) : Prop :=
  core.busy = false ∧ loadable core.memWords program = true ∧
    Invocations (hostIssue (.load program) core) (os ++ [last]) t ∧
    (∀ o ∈ os, o.isTerminal = false) ∧ last.isTerminal = true

/-- The run ends well: its last invocation returns `Halted` (60_exceptions R223). -/
def EndsWell (program : List Int) (core : State) (os : List InvokeOutcome) (t : State) : Prop :=
  IsRun program core os .halted t

end Sys2Proof.Machine
end

