-- ==== Sys2Proof/Machine/Network.lean ====
section
/-! DEFINITION. The host protocol that drives several isolated cores (60_exceptions R240-R244). It is host software, not
the core (00_scope R4), given so that the spec's network examples can be run. Each bound `n` limits instructions per
invocation and rounds per ring; `none` says only that the bound was too small (R207, log entry 14). -/

namespace Sys2Proof.Machine

/-- One step of core `k` of a system of any number of cores: no other core's state is read or written
(60_exceptions R240, R241; 10_state R31). A number that is no core's does nothing. -/
def stepOfCore (k : Nat) (cores : List State) : Host.Outcome (List State) Fault Refusal :=
  match cores[k]? with
  | none => .next cores
  | some core =>
    match step core with
    | .next t => .next (cores.set k t)
    | .fault f => .fault f
    | .refused r => .refused r

/-- Why a trial fails (60_exceptions R242, R243). -/
inductive TrialFailure where
  /-- the Load of core `i` was refused (R231); R242 has no branch for it: DESIGN CHOICE (log entry 18) -/
  | loadRefused (core : Nat)
  /-- core `i` faulted -/
  | fault (core : Nat) (k : FaultKind)
  /-- core `i` returned an outcome the protocol does not expect -/
  | protocol (core : Nat)
deriving DecidableEq, Repr

/-- The end of a trial (60_exceptions R243). A result without a value counts as failed. -/
inductive TrialEnd where
  | result (last : Option Word)
  | failed (why : TrialFailure)
deriving DecidableEq, Repr

/-- A trial's setup or one round of its ring: the cores after it, or the trial's end. -/
inductive Round (α : Type) where
  | goOn (a : α)
  | ended (e : TrialEnd)
deriving DecidableEq, Repr

/-- Setup: core `i` is invoked first with its phase and must return `NeedInput` (60_exceptions R242; 90 C4; 92 D25). -/
def setupCores (n : Nat) : Nat → List (Word × State) → Option (Round (List State))
  | _, [] => some (.goOn [])
  | i, (phase, core) :: rest =>
    match invokeWithin n phase core with
    | none => none
    | some (.needInput, t) =>
      match setupCores n (i + 1) rest with
      | none => none
      | some (.goOn ts) => some (.goOn (t :: ts))
      | some (.ended e) => some (.ended e)
    | some (.fault k, _) => some (.ended (.failed (.fault i k)))
    | some (.produced _, _) => some (.ended (.failed (.protocol i)))
    | some (.halted, _) => some (.ended (.failed (.protocol i)))

/-- One round of the ring over the cores from `i` on: each takes the signal and passes on what it produces; the last
core's value is remembered, and the last core's `Halted` ends the trial (60_exceptions R243). -/
def ringRound (n : Nat) : Nat → List State → Word → Option Word → Option (Round (List State × Word × Option Word))
  | _, [], sig, last => some (.goOn ([], sig, last))
  | i, core :: rest, sig, last =>
    match invokeWithin n sig core with
    | none => none
    | some (.fault k, _) => some (.ended (.failed (.fault i k)))
    | some (.needInput, _) => some (.ended (.failed (.protocol i)))
    | some (.halted, t) =>
      if rest.isEmpty then some (.ended (.result last))
      else
        match ringRound n (i + 1) rest sig last with
        | none => none
        | some (.ended e) => some (.ended e)
        | some (.goOn (ts, sig', last')) => some (.goOn (t :: ts, sig', last'))
    | some (.produced v, t) =>
      match ringRound n (i + 1) rest v (if rest.isEmpty then some v else last) with
      | none => none
      | some (.ended e) => some (.ended e)
      | some (.goOn (ts, sig', last')) => some (.goOn (t :: ts, sig', last'))

/-- The ring, for at most the given number of rounds (60_exceptions R243). -/
def ring (n : Nat) : Nat → List State → Word → Option Word → Option TrialEnd
  | 0, _, _, _ => none
  | rounds + 1, cores, sig, last =>
    match ringRound n 0 cores sig last with
    | none => none
    | some (.ended e) => some e
    | some (.goOn (cores', sig', last')) => ring n rounds cores' sig' last'

/-- The first loop of a trial: one fresh core per phase is given the host's Load of the program (60_exceptions R242).
DESIGN CHOICE (log entry 18): a refused Load (R231) fails the trial, since a refused Load has no run (92 D27). -/
def loadCores (memWords : Option Nat) (program : List Int) : Nat → List Word → Round (List (Word × State))
  | _, [] => .goOn []
  | i, phase :: rest =>
    if loadable memWords program then
      match loadCores memWords program (i + 1) rest with
      | .goOn cores => .goOn ((phase, hostIssue (.load program) { State.reset with memWords := memWords }) :: cores)
      | .ended e => .ended e
    else .ended (.failed (.loadRefused i))

/-- `Trial(P, φ, s0)`: one core per phase, each loaded fresh (60_exceptions R242). The phases and the signal are Words,
as Invoke takes no other value (R200; 91 N25). -/
def trial (n : Nat) (memWords : Option Nat) (program : List Int) (phases : List Word) (s0 : Word) : Option TrialEnd :=
  match loadCores memWords program 0 phases with
  | .ended e => some e
  | .goOn loadedCores =>
    match setupCores n 0 loadedCores with
    | none => none
    | some (.ended e) => some e
    | some (.goOn cores) => ring n n cores s0 none

/-- The permutations of a list of `k` values, in lexicographic order of their places (60_exceptions R244). -/
def permutations : Nat → List Word → List (List Word)
  | 0, _ => [[]]
  | k + 1, xs => xs.flatMap fun x => (permutations k (xs.erase x)).map fun ys => x :: ys

/-- What the search reports (60_exceptions R244): the best result with its permutation, `none` being the explicit
"no valid result", and every trial that failed. -/
structure SearchResult where
  best : Option (Word × List Word)
  failed : List (List Word × Option TrialFailure)
deriving DecidableEq, Repr

/-- The search over a list of permutations: a failed trial is recorded and does not stop it; the first permutation
that achieves the maximum wins (60_exceptions R244). -/
def searchTrials (n : Nat) (memWords : Option Nat) (program : List Int) (s0 : Word) :
    List (List Word) → SearchResult → Option SearchResult
  | [], acc => some acc
  | perm :: rest, acc =>
    match trial n memWords program perm s0 with
    | none => none
    | some (.failed why) =>
      searchTrials n memWords program s0 rest { acc with failed := acc.failed ++ [(perm, some why)] }
    | some (.result none) =>
      searchTrials n memWords program s0 rest { acc with failed := acc.failed ++ [(perm, none)] }
    | some (.result (some v)) =>
      match acc.best with
      | none => searchTrials n memWords program s0 rest { acc with best := some (v, perm) }
      | some (w, _) =>
        if w.toInt < v.toInt then searchTrials n memWords program s0 rest { acc with best := some (v, perm) }
        else searchTrials n memWords program s0 rest acc

/-- `N = high − low + 1`, and no core where that is not positive (60_exceptions R244). -/
def networkSize (low high : Word) : Nat := (high.toInt - low.toInt + 1).toNat

/-- The phases `low..high` in order. Both ends are Words, so every phase is one and nothing is truncated (91 N25). -/
def networkPhases (low high : Word) : List Word :=
  (List.range (networkSize low high)).map fun (k : Nat) => BitVec.ofInt 64 (low.toInt + k)

/-- `run_network(program, [low, high], initial_signal)` on `high − low + 1` cores (60_exceptions R244). DESIGN CHOICE (log
entry 19): an empty range, `high < low`, is a network of no core, whose one trial has a ring that never ends, so that no
bound is enough and the answer is `none`. -/
def runNetwork (n : Nat) (memWords : Option Nat) (program : List Int) (low high : Word) (s0 : Word) :
    Option SearchResult :=
  searchTrials n memWords program s0 (permutations (networkSize low high) (networkPhases low high)) ⟨none, []⟩

end Sys2Proof.Machine
end

