-- ==== Sys2Proof/Machine/Signals.lean ====
section
/-! DEFINITION. The signal-level realisation of the host interface (60_exceptions R234). It is one possible realisation
and informative: no rule of the model depends on it (00_scope R6), and `step` does not use it (log entry 17). -/

namespace Sys2Proof.Machine

/-- The input signals in one clock cycle (60_exceptions R234). -/
structure Inputs where
  rst : Bool
  start : Bool
  inData : Word
  ldClear : Bool
  ldWe : Bool
  ldAddr : BitVec 64
  ldData : Word
deriving DecidableEq, Repr

/-- The core behind its signals, with what the two signals `done` and `outcome` hold. -/
structure Clocked where
  core : State
  done : Bool
  outcome : BitVec 2
deriving DecidableEq, Repr

/-- `done` is high for one cycle when the core has come to a stop, and `outcome` takes the code of what the host was
given (60_exceptions R201, R234). DESIGN CHOICE (log entry 17): from a start to the next `done`, where R234 does not call
`outcome` valid, it keeps the code it had. -/
def signalStop (before : BitVec 2) (t : State) : Clocked :=
  if t.busy then ⟨t, false, before⟩
  else
    match deliveredOutcome t with
    | some o => ⟨t, true, outcomeCode o⟩
    | none => ⟨t, true, before⟩

/-- `ld_we`: one program word is written, and `MLEN` covers the highest written address (60_exceptions R234). DESIGN
CHOICE (log entry 17): `ld_addr` is read as unsigned, and a write at or beyond `MEM_WORDS` does nothing. -/
def signalWrite (a : Nat) (v : Word) (s : State) : State :=
  if inCapacity s.memWords a then { extend a s with mem := writeCell s.mem a v } else s

/-- One clock edge. `start`, `ld_clear` and `ld_we` are ignored while busy; `outcome` is 0 after Reset and after the
clearing part of Load (70_reset R260). The number of cycles an instruction takes is not specified (70_reset R268); here it
is one. DESIGN CHOICE (log entry 17): the order of signals raised together, and that an `ld_we` on an idle core writes
its word whether or not an `ld_clear` came before it. -/
def clockEdge (x : Inputs) (c : Clocked) : Clocked :=
  if x.rst then ⟨hostReset c.core, false, 0⟩
  else if c.core.busy then
    match stepInstr c.core with
    | .next t => signalStop c.outcome t
    | .fault _ => c
    | .refused _ => c
  else if x.start then signalStop c.outcome (hostInvoke x.inData c.core)
  else if x.ldClear then ⟨loaded [] c.core, false, 0⟩
  else if x.ldWe then ⟨signalWrite x.ldAddr.toNat x.ldData c.core, false, c.outcome⟩
  else ⟨c.core, false, c.outcome⟩

/-- Clock edges, one for each cycle's inputs, in order. -/
def clockEdges : List Inputs → Clocked → Clocked
  | [], c => c
  | x :: xs, c => clockEdges xs (clockEdge x c)

/-- The output signals that show the core's registers (60_exceptions R234). -/
structure Outputs where
  busy : Bool
  done : Bool
  outcome : BitVec 2
  outData : Word
  halted : Bool
  faulted : Bool
  faultKind : BitVec 3
deriving DecidableEq, Repr

/-- The outputs of a state (60_exceptions R234). -/
def outputs (c : Clocked) : Outputs :=
  { busy := c.core.busy
    done := c.done
    outcome := c.outcome
    outData := c.core.out
    halted := c.core.halted
    faulted := c.core.faulted
    faultKind := faultCode c.core.faultKind }

/-- `dbg_rdata`, where it is valid: a register or a memory word of an idle core (60_exceptions R232, R234). DESIGN
CHOICE (log entry 17): `dbg_addr` is read as unsigned, and where R232 refuses the inspection there is no value. -/
def dbgRdata (dbgMem : Bool) (dbgAddr : BitVec 64) (s : State) : Option Word :=
  if s.busy then none
  else if dbgMem then
    match addressFault s.memWords dbgAddr.toNat with
    | some _ => none
    | none => some (readCell s.mem dbgAddr.toNat)
  else inspectRegister (dbgAddr.toNat % 8) s

end Sys2Proof.Machine
end

