-- ==== Sys2Proof/Safety.lean ====
section
/-! DEFINITION. What counts as a legal state, a readable operand, a precise fault and a completed store, in the terms
the claims use. -/

namespace Sys2Proof

open Sys2Proof.Machine

/-! ## Legal states -/

/-- No listed cell lies at or beyond an address. -/
def cellsBelow (m : Memory) (n : Nat) : Bool := m.all fun c => c.1 < n

/-- The memory length lies within the capacity (20_memory R65, R67). -/
def lengthFits (memWords : Option Nat) (n : Nat) : Bool :=
  match memWords with
  | none => true
  | some c => n ≤ c

/-- The legal states of the core: memory in canonical form and within `MLEN` (20_memory R61, R65), `MLEN` within
`MEM_WORDS` (R67), never `HALTED = FAULTED = 1` (10_state R37), `FAULT_KIND` is `None` exactly while `FAULTED = 0`
(R40), only a Running core is busy (60_exceptions R202), and the latch is valid only while busy (10_state R45). -/
structure LegalState (s : State) : Prop where
  memCanonical : s.mem.wf = true
  memWithinLength : cellsBelow s.mem s.mlen = true
  lengthWithinCapacity : lengthFits s.memWords s.mlen = true
  notBothFlags : ¬ (s.halted = true ∧ s.faulted = true)
  kindWithFault : s.faulted = true ↔ s.faultKind ≠ .noFault
  busyOnlyRunning : s.busy = true → s.halted = false ∧ s.faulted = false
  validOnlyBusy : s.inValid = true → s.busy = true

/-! ## Addresses and operands -/

/-- An address that exists: not negative and below `MEM_WORDS` (20_memory R63, R67). -/
def Accessible (s : State) (a : Int) : Prop :=
  0 ≤ a ∧ ∀ c, s.memWords = some c → a < c

/-- The fault of an access at an address (20_memory R63, R64). -/
def AddressFaults (s : State) (a : Int) (k : FaultKind) : Prop :=
  (a < 0 ∧ k = .invalidAddress) ∨ (0 ≤ a ∧ (∃ c, s.memWords = some c ∧ (c : Int) ≤ a) ∧ k = .outOfStorage)

/-- The value of a read operand in each of its three modes (30_encoding R101, R102, R103). -/
def ReadsAs (p : Param) (s : State) (v : Word) : Prop :=
  match p.mode with
  | .position => Accessible s p.word.toInt ∧ v = readCell s.mem p.word.toInt.toNat
  | .immediate => v = p.word
  | .relative =>
    Accessible s (p.word.toInt + s.rb.toInt) ∧ v = readCell s.mem (p.word.toInt + s.rb.toInt).toNat

/-- Resolving the parameter's effective address faults (30_encoding R101, R103, R104). -/
def OperandFaults (p : Param) (s : State) (k : FaultKind) : Prop :=
  ∃ a, effectiveAddress p s = some a ∧ AddressFaults s a k

/-- The words memory holds at an address and the `n - 1` addresses after it. -/
def wordsAt (s : State) (a : Int) (n : Nat) : List Word :=
  (List.range n).map fun (j : Nat) => readCell s.mem (a + (j : Int)).toNat

/-! ## What an instruction may leave -/

/-- A precise fault (60_exceptions R217, R218): `FAULTED` and `FAULT_KIND` are set, the latch and `BUSY` cleared, the
outcome delivered, and all else is as before, but for `MLEN`, which reads may have raised. -/
def FaultsWith (s : State) (o : Host.Outcome State Fault Refusal) (k : FaultKind) : Prop :=
  ∃ t, o = .next t ∧ s.mlen ≤ t.mlen ∧
    t = { s with
          faulted := true
          faultKind := k
          inValid := false
          busy := false
          mlen := t.mlen
          hostInbox := .outcome (.fault k) :: s.hostInbox }

/-- `t` is `s` with the word `r` at address `d` and `IP` advanced by `len`: every other address reads as before and
every other field is as before, but for `MLEN`, which covers `d`. -/
def StoresWord (s t : State) (d r : Int) (len : Nat) : Prop :=
  (readCell t.mem d.toNat).toInt = r ∧
  (∀ k, k ≠ d.toNat → readCell t.mem k = readCell s.mem k) ∧
  t.ip.toInt = s.ip.toInt + len ∧
  s.mlen ≤ t.mlen ∧ d.toNat < t.mlen ∧
  t = { s with ip := t.ip, mem := t.mem, mlen := t.mlen }

/-- The faults of an instruction of format F3, in their order (60_exceptions R220, phases 4, 6, 7 and 8): the target's
mode, operand 1, operand 2, the target's address, the result and `IP + 4`. -/
def F3Faults (make : Param → Param → Param → Instr) (f : Word → Word → Int) : Prop :=
  ∀ (a b dst : Param) (s : State),
    (dst.mode = .immediate → FaultsWith s (exec (make a b dst) s) .invalidWriteTarget) ∧
    (dst.mode ≠ .immediate →
      (∀ k, OperandFaults a s k → FaultsWith s (exec (make a b dst) s) k) ∧
      ∀ x, ReadsAs a s x →
        (∀ k, OperandFaults b s k → FaultsWith s (exec (make a b dst) s) k) ∧
        ∀ y, ReadsAs b s y →
          (∀ k, OperandFaults dst s k → FaultsWith s (exec (make a b dst) s) k) ∧
          ∀ d, effectiveAddress dst s = some d → Accessible s d →
            fits64 (f x y) = false ∨ fits64 (s.ip.toInt + 4) = false →
            FaultsWith s (exec (make a b dst) s) .arithmeticOverflow)

/-- The faults of an instruction of format F2, in their order (60_exceptions R220): operand 1, operand 2, and `IP + 3`
where the jump is not taken. -/
def F2Faults (make : Param → Param → Instr) (taken : Word → Prop) : Prop :=
  ∀ (a b : Param) (s : State),
    (∀ k, OperandFaults a s k → FaultsWith s (exec (make a b) s) k) ∧
    ∀ x, ReadsAs a s x →
      (∀ k, OperandFaults b s k → FaultsWith s (exec (make a b) s) k) ∧
      ∀ y, ReadsAs b s y → ¬ taken x → fits64 (s.ip.toInt + 3) = false →
        FaultsWith s (exec (make a b) s) .arithmeticOverflow

/-- The instruction's encoding: its length, its canonical word with this opcode value and the mode digits of its
parameters, and then the parameters (30_encoding R90, R97, R109, R110). -/
def EncodedAs (i : Instr) (code : Nat) (ps : List Param) : Prop :=
  i.length = ps.length + 1 ∧
  encode i =
    BitVec.ofNat 64 (code + 100 * ((ps.map fun p => p.mode.toDigit).getD 0 0) +
        1000 * ((ps.map fun p => p.mode.toDigit).getD 1 0) + 10000 * ((ps.map fun p => p.mode.toDigit).getD 2 0)) ::
      ps.map Param.word

/-- A mode digit above 2, in any of the three places, or a digit above them (30_encoding R94). -/
def BadModeDigit (w : Word) : Prop :=
  2 < w.toInt / 100 % 10 ∨ 2 < w.toInt / 1000 % 10 ∨ 2 < w.toInt / 10000 % 10 ∨ w.toInt / 100000 ≠ 0

/-- An instruction word with this opcode value and a bad mode digit does not decode: `InvalidMode` (30_encoding R94). -/
def InvalidModeFor (code : Int) : Prop :=
  ∀ w : Word, 0 ≤ w.toInt → w.toInt % 100 = code → BadModeDigit w → decodeHeader w = .error .invalidMode

/-- The opcodes of the spec (30_encoding R96). -/
def opcodeValues : List Int := [1, 2, 3, 4, 5, 6, 7, 8, 9, 99]

/-! ## Whole-machine rules -/

/-- The step serves the host's Load or Reset, the only host operations that write a register or memory
(60_exceptions R230). -/
def ServesLoadOrReset (s : State) : Prop :=
  servedOp s = some .reset ∨ ∃ p, servedOp s = some (.load p)

/-- The step fetches and runs the instruction `i`. -/
def RunsInstr (s : State) (i : Instr) : Prop :=
  servedOp s = none ∧ s.busy = true ∧ ∃ s', fetchInstr s = .ok i s'

/-- The checkpoint: what persists from one invocation to the next (10_state R45), with the capacity. The latch,
`BUSY` and the host's own fields are not part of it, nor is `MLEN`, which nothing observes (20_memory R66). -/
def SameCheckpoint (s t : State) : Prop :=
  s.ip = t.ip ∧ s.rb = t.rb ∧ s.halted = t.halted ∧ s.faulted = t.faulted ∧ s.faultKind = t.faultKind ∧
    s.out = t.out ∧ s.mem = t.mem ∧ s.memWords = t.memWords

/-- The state with what no rule observes blotted out: `MLEN` (20_memory R66), and `IN_DATA` while `IN_VALID = 0`
(10_state R43). -/
def hideUnobservable (s : State) : State :=
  { s with mlen := 0, inData := if s.inValid then s.inData else 0 }

/-- The inputs of a cycle raise these pulses and no other (60_exceptions R234). -/
def Raises (x : Inputs) (rst start ldClear ldWe : Bool) : Prop :=
  x.rst = rst ∧ x.start = start ∧ x.ldClear = ldClear ∧ x.ldWe = ldWe

end Sys2Proof
end

