-- ==== Sys2Proof/Certificates/Slice0/Obligations.lean ====
section
/-! DEFINITION. The statements for the provers. -/

open Sys2Proof
open Sys2Proof.Machine

/-! ## Encoding and decoding (30_encoding) -/

/-- Instruction words of the spec's examples, and words it rejects (95_test_vectors V-D). -/
def Obligations.SpecWordsDecode : Prop :=
  decode [1002, 4, 3, 4] = .ok (.mul ⟨.position, 4⟩ ⟨.immediate, 3⟩ ⟨.position, 4⟩, []) ∧
  decode [22201, 0, 1, 2] = .ok (.add ⟨.relative, 0⟩ ⟨.relative, 1⟩ ⟨.relative, 2⟩, []) ∧
  decode [203, 4] = .ok (.inp ⟨.relative, 4⟩, []) ∧
  decode [21104, 42, 99] = .ok (.out ⟨.immediate, 42⟩, [99]) ∧
  decode [2105, 1, 0] = .ok (.jt ⟨.immediate, 1⟩ ⟨.relative, 0⟩, []) ∧
  decode [1006, 101, 0] = .ok (.jf ⟨.position, 101⟩ ⟨.immediate, 0⟩, []) ∧
  decode [1107, -1, 0, 5] = .ok (.lt ⟨.immediate, -1⟩ ⟨.immediate, 0⟩ ⟨.position, 5⟩, []) ∧
  decode [8, 5, 6, 7] = .ok (.eq ⟨.position, 5⟩ ⟨.position, 6⟩ ⟨.position, 7⟩, []) ∧
  decode [109, 1] = .ok (.arb ⟨.immediate, 1⟩, []) ∧
  decode [20099] = .ok (.halt, []) ∧
  decode [5003] = .error (.fault .invalidMode) ∧
  decode [50010] = .error (.fault .unknownOpcode) ∧
  decode [-99] = .error (.fault .unknownOpcode)

/-- Decoding an instruction's words gives the instruction back and leaves what follows, for every instruction with
every mode and every parameter word (30_encoding R109). -/
def Obligations.DecodeOfEncode : Prop :=
  ∀ (i : Instr) (rest : List Word), decode (encode i ++ rest) = .ok (i, rest)

/-- Every canonical word lies below 100000; an accepted word has the digits of its header, so no two words share one;
and it differs from the canonical word of its instruction only in digits of parameters the opcode lacks
(30_encoding R109). -/
def Obligations.AcceptedWordsAreSpellings : Prop :=
  (∀ i : Instr, ∃ w ps, encode i = w :: ps ∧ 0 ≤ w.toInt ∧ w.toInt < 100000) ∧
  (∀ (w : Word) (h : Header), decodeHeader w = .ok h →
    w.toInt = (h.op.toCode + 100 * h.m1.toDigit + 1000 * h.m2.toDigit + 10000 * h.m3.toDigit : Nat)) ∧
  ∀ (w : Word) (ws rest : List Word) (i : Instr), decode (w :: ws) = .ok (i, rest) →
    ∃ c ps, encode i = c :: ps ∧ ps ++ rest = ws ∧
      c.toInt % (10 ^ (i.length + 1)) = w.toInt % (10 ^ (i.length + 1))

/-- The mode digit of a parameter the opcode lacks is ignored (30_encoding R100). -/
def Obligations.AbsentParameterDigitsIgnored : Prop :=
  ∀ (op : Opcode) (m1 m2 m3 : Mode) (ws : List Word),
    decode (canonicalWord op m1 m2 m3 :: ws) =
      decode (canonicalWord op (if 1 ≤ op.params then m1 else .position) (if 2 ≤ op.params then m2 else .position)
        (if 3 ≤ op.params then m3 else .position) :: ws)

/-- The decoder on every word: a negative word, then a wrong opcode, then a bad mode digit is a fault, and any other
word decodes to its digits (30_encoding R91, R105). -/
def Obligations.DecoderOnEveryWord : Prop :=
  ∀ w : Word,
    (w.toInt < 0 → decodeHeader w = .error .unknownOpcode) ∧
    (0 ≤ w.toInt → w.toInt % 100 ∉ opcodeValues → decodeHeader w = .error .unknownOpcode) ∧
    (0 ≤ w.toInt → w.toInt % 100 ∈ opcodeValues → BadModeDigit w → decodeHeader w = .error .invalidMode) ∧
    (0 ≤ w.toInt → w.toInt % 100 ∈ opcodeValues → ¬ BadModeDigit w →
      ∃ h, decodeHeader w = .ok h ∧ (h.op.toCode : Int) = w.toInt % 100 ∧ (h.m1.toDigit : Int) = w.toInt / 100 % 10 ∧
        (h.m2.toDigit : Int) = w.toInt / 1000 % 10 ∧ (h.m3.toDigit : Int) = w.toInt / 10000 % 10)

/-- The length of an instruction depends on its opcode alone and is how many words decoding takes
(30_encoding R97). -/
def Obligations.LengthByOpcode : Prop :=
  ∀ (w : Word) (ws rest : List Word) (i : Instr), decode (w :: ws) = .ok (i, rest) →
    (w.toInt % 100, i.length) ∈
      [((1 : Int), 4), (2, 4), (3, 2), (4, 2), (5, 3), (6, 3), (7, 4), (8, 4), (9, 2), (99, 1)] ∧
    i.length + rest.length = ws.length + 1 ∧ rest = ws.drop (i.length - 1)

/-! ## Arithmetic, comparison, input, output, jumps, system (40 to 44) -/

/-- `add` (40_arithmetic R131): where it completes, its result and its frame; where it faults; its encoding. -/
def Obligations.AddRule : Prop :=
  (∀ (a b dst : Param) (s : State) (x y : Word) (d : Int),
    ReadsAs a s x → ReadsAs b s y → effectiveAddress dst s = some d → Accessible s d → s.mem.wf = true →
    fits64 (x.toInt + y.toInt) = true → fits64 (s.ip.toInt + 4) = true →
    ∃ t, exec (.add a b dst) s = .next t ∧ StoresWord s t d (x.toInt + y.toInt) 4) ∧
  F3Faults .add (fun x y => x.toInt + y.toInt) ∧
  (∀ a b dst, EncodedAs (.add a b dst) 1 [a, b, dst]) ∧ InvalidModeFor 1

/-- `multiply` (40_arithmetic R132). -/
def Obligations.MultiplyRule : Prop :=
  (∀ (a b dst : Param) (s : State) (x y : Word) (d : Int),
    ReadsAs a s x → ReadsAs b s y → effectiveAddress dst s = some d → Accessible s d → s.mem.wf = true →
    fits64 (x.toInt * y.toInt) = true → fits64 (s.ip.toInt + 4) = true →
    ∃ t, exec (.mul a b dst) s = .next t ∧ StoresWord s t d (x.toInt * y.toInt) 4) ∧
  F3Faults .mul (fun x y => x.toInt * y.toInt) ∧
  (∀ a b dst, EncodedAs (.mul a b dst) 2 [a, b, dst]) ∧ InvalidModeFor 2

/-- `less-than` (43_compare R160): the comparison is signed and cannot overflow. -/
def Obligations.LessThanRule : Prop :=
  (∀ (a b dst : Param) (s : State) (x y : Word) (d : Int),
    ReadsAs a s x → ReadsAs b s y → effectiveAddress dst s = some d → Accessible s d → s.mem.wf = true →
    fits64 (s.ip.toInt + 4) = true →
    ∃ t, exec (.lt a b dst) s = .next t ∧ StoresWord s t d (if x.toInt < y.toInt then 1 else 0) 4) ∧
  F3Faults .lt (fun x y => if x.toInt < y.toInt then 1 else 0) ∧
  (∀ a b dst, EncodedAs (.lt a b dst) 7 [a, b, dst]) ∧ InvalidModeFor 7

/-- `equals` (43_compare R161): the whole words are compared. -/
def Obligations.EqualsRule : Prop :=
  (∀ (a b dst : Param) (s : State) (x y : Word) (d : Int),
    ReadsAs a s x → ReadsAs b s y → effectiveAddress dst s = some d → Accessible s d → s.mem.wf = true →
    fits64 (s.ip.toInt + 4) = true →
    ∃ t, exec (.eq a b dst) s = .next t ∧ StoresWord s t d (if x.toInt = y.toInt then 1 else 0) 4) ∧
  F3Faults .eq (fun x y => if x.toInt = y.toInt then 1 else 0) ∧
  (∀ a b dst, EncodedAs (.eq a b dst) 8 [a, b, dst]) ∧ InvalidModeFor 8

/-- `input` (41_io R140): with a value it stores the value and consumes it; without one the invocation stops with
`NeedInput` and no architectural state changes, so that the next invocation runs it again with its own value; a bad
target faults in both cases. -/
def Obligations.InputRule : Prop :=
  (∀ (dst : Param) (s : State) (d : Int),
    effectiveAddress dst s = some d → Accessible s d → s.mem.wf = true → s.inValid = true →
    fits64 (s.ip.toInt + 2) = true →
    ∃ t, exec (.inp dst) s = .next t ∧ StoresWord { s with inValid := false } t d s.inData.toInt 2) ∧
  (∀ (dst : Param) (s : State) (d : Int),
    effectiveAddress dst s = some d → Accessible s d → s.inValid = false →
    ∃ t, exec (.inp dst) s = .next t ∧ t = { s with busy := false, hostInbox := .outcome .needInput :: s.hostInbox } ∧
      ∀ v, s.halted = false → s.faulted = false →
        hostIssue (.invoke v) t = { t with inData := v, inValid := true, busy := true }) ∧
  (∀ (dst : Param) (s : State),
    (dst.mode = .immediate → FaultsWith s (exec (.inp dst) s) .invalidWriteTarget) ∧
    (∀ k, OperandFaults dst s k → FaultsWith s (exec (.inp dst) s) k) ∧
    ∀ d, effectiveAddress dst s = some d → Accessible s d → s.inValid = true → fits64 (s.ip.toInt + 2) = false →
      FaultsWith s (exec (.inp dst) s) .arithmeticOverflow) ∧
  (∀ dst, EncodedAs (.inp dst) 3 [dst]) ∧ InvalidModeFor 3

/-- `output` (41_io R141): `OUT` holds the value, `IP` is past the instruction, and the invocation stops with
`Produced(a)`. -/
def Obligations.OutputRule : Prop :=
  (∀ (a : Param) (s : State) (x : Word), ReadsAs a s x → fits64 (s.ip.toInt + 2) = true →
    ∃ t, exec (.out a) s = .next t ∧ t.ip.toInt = s.ip.toInt + 2 ∧ s.mlen ≤ t.mlen ∧
      t = { s with
            ip := t.ip
            out := x
            inValid := false
            busy := false
            mlen := t.mlen
            hostInbox := .outcome (.produced x) :: s.hostInbox }) ∧
  (∀ (a : Param) (s : State),
    (∀ k, OperandFaults a s k → FaultsWith s (exec (.out a) s) k) ∧
    ∀ x, ReadsAs a s x → fits64 (s.ip.toInt + 2) = false → FaultsWith s (exec (.out a) s) .arithmeticOverflow) ∧
  (∀ a, EncodedAs (.out a) 4 [a]) ∧ InvalidModeFor 4

/-- `jump-if-true` (42_jump R150): any word but 0 is true. -/
def Obligations.JumpIfTrueRule : Prop :=
  (∀ (a b : Param) (s : State) (x y : Word), ReadsAs a s x → ReadsAs b s y →
    (x.toInt ≠ 0 ∨ fits64 (s.ip.toInt + 3) = true) →
    ∃ t, exec (.jt a b) s = .next t ∧ t.ip.toInt = (if x.toInt ≠ 0 then y.toInt else s.ip.toInt + 3) ∧
      s.mlen ≤ t.mlen ∧ t = { s with ip := t.ip, mlen := t.mlen }) ∧
  F2Faults .jt (fun x => x.toInt ≠ 0) ∧ (∀ a b, EncodedAs (.jt a b) 5 [a, b]) ∧ InvalidModeFor 5

/-- `jump-if-false` (42_jump R151): only exactly 0 is false. -/
def Obligations.JumpIfFalseRule : Prop :=
  (∀ (a b : Param) (s : State) (x y : Word), ReadsAs a s x → ReadsAs b s y →
    (x.toInt = 0 ∨ fits64 (s.ip.toInt + 3) = true) →
    ∃ t, exec (.jf a b) s = .next t ∧ t.ip.toInt = (if x.toInt = 0 then y.toInt else s.ip.toInt + 3) ∧
      s.mlen ≤ t.mlen ∧ t = { s with ip := t.ip, mlen := t.mlen }) ∧
  F2Faults .jf (fun x => x.toInt = 0) ∧ (∀ a b, EncodedAs (.jf a b) 6 [a, b]) ∧ InvalidModeFor 6

/-- `adjust-relative-base` (44_system R170): the operand is read with the old `RB`, and the sum is exact. -/
def Obligations.AdjustRelativeBaseRule : Prop :=
  (∀ (a : Param) (s : State) (x : Word), ReadsAs a s x → fits64 (s.rb.toInt + x.toInt) = true →
    fits64 (s.ip.toInt + 2) = true →
    ∃ t, exec (.arb a) s = .next t ∧ t.rb.toInt = s.rb.toInt + x.toInt ∧ t.ip.toInt = s.ip.toInt + 2 ∧
      s.mlen ≤ t.mlen ∧ t = { s with rb := t.rb, ip := t.ip, mlen := t.mlen }) ∧
  (∀ (a : Param) (s : State),
    (∀ k, OperandFaults a s k → FaultsWith s (exec (.arb a) s) k) ∧
    ∀ x, ReadsAs a s x → fits64 (s.rb.toInt + x.toInt) = false ∨ fits64 (s.ip.toInt + 2) = false →
      FaultsWith s (exec (.arb a) s) .arithmeticOverflow) ∧
  (∀ a, EncodedAs (.arb a) 9 [a]) ∧ InvalidModeFor 9

/-- `halt` (44_system R171): `IP` is past the instruction, `HALTED` is set, the invocation stops with `Halted`, and
every later invocation returns `Halted` with nothing changed. -/
def Obligations.HaltRule : Prop :=
  (∀ s : State, fits64 (s.ip.toInt + 1) = true →
    ∃ t, exec .halt s = .next t ∧ t.ip.toInt = s.ip.toInt + 1 ∧
      t = { s with
            ip := t.ip
            halted := true
            inValid := false
            busy := false
            hostInbox := .outcome .halted :: s.hostInbox } ∧
      ∀ v, hostIssue (.invoke v) t = { t with hostInbox := .outcome .halted :: t.hostInbox }) ∧
  (∀ s : State, fits64 (s.ip.toInt + 1) = false → FaultsWith s (exec .halt s) .arithmeticOverflow) ∧
  EncodedAs .halt 99 [] ∧ InvalidModeFor 99

/-- A taken jump loads `IP` with the target word exactly, negative or beyond the program, and does not stop the
invocation; the next fetch, if the host leaves it to run, faults `InvalidAddress` at a negative target and
`UnknownOpcode` where memory holds 0 (42_jump R152). -/
def Obligations.JumpTargetsAreLoadedExactly : Prop :=
  ∀ (a b : Param) (s : State) (x y : Word), ReadsAs a s x → ReadsAs b s y →
    ∀ i : Instr, (i = .jt a b ∧ x.toInt ≠ 0) ∨ (i = .jf a b ∧ x.toInt = 0) →
    ∃ t, exec i s = .next t ∧ t.ip = y ∧ t.busy = s.busy ∧ t.hostInbox = s.hostInbox ∧
      (t.busy = true → servedOp t = none →
        (y.toInt < 0 → FaultsWith (takeMove t) (step t) .invalidAddress) ∧
        (Accessible t y.toInt → readCell t.mem y.toInt.toNat = 0 → FaultsWith (takeMove t) (step t) .unknownOpcode))

/-! ## Memory (20_memory) -/

/-- Every access: the two faults in their order, and otherwise the word memory holds, or the word written with every
other address as before; nothing else changes but `MLEN` (20_memory R63, R64). -/
def Obligations.MemoryAccess : Prop :=
  ∀ (a : Int) (v : Word) (s : State), s.mem.wf = true →
    (a < 0 → memRead a s = .raise .invalidAddress s ∧ memWrite a v s = .raise .invalidAddress s) ∧
    (0 ≤ a → ∀ c, s.memWords = some c → (c : Int) ≤ a →
      memRead a s = .raise .outOfStorage s ∧ memWrite a v s = .raise .outOfStorage s) ∧
    (Accessible s a →
      memRead a s = .ok (readCell s.mem a.toNat) { s with mlen := max s.mlen (a.toNat + 1) } ∧
      ∃ t, memWrite a v s = .ok () t ∧ t = { s with mlen := max s.mlen (a.toNat + 1), mem := t.mem } ∧
        t.mem.wf = true ∧ readCell t.mem a.toNat = v ∧ ∀ k, k ≠ a.toNat → readCell t.mem k = readCell s.mem k)

/-- Auto-extension: an access at or beyond `MLEN` sets it to the address plus one, the newly exposed words hold 0 but
for the word being written, and `MLEN` never decreases except at Load, Reset being a Load (20_memory R65). -/
def Obligations.AutoExtension : Prop :=
  (∀ (a : Int) (v : Word) (s : State), Accessible s a → (s.mlen : Int) ≤ a →
    (∃ w t, memRead a s = .ok w t ∧ t.mlen = a.toNat + 1 ∧
      (cellsBelow s.mem s.mlen = true → ∀ k, s.mlen ≤ k → readCell t.mem k = 0)) ∧
    ∃ t, memWrite a v s = .ok () t ∧ t.mlen = a.toNat + 1 ∧
      (s.mem.wf = true → cellsBelow s.mem s.mlen = true → ∀ k, s.mlen ≤ k → k ≠ a.toNat → readCell t.mem k = 0)) ∧
  ∀ s t : State, step s = .next t → ¬ ServesLoadOrReset s → s.mlen ≤ t.mlen

/-- Load puts the program at addresses 0 to n-1 in order, 0 beyond it, and `MLEN` at its length (20_memory R62). -/
def Obligations.LoadPlacesTheProgram : Prop :=
  ∀ (ws : List Word) (s : State),
    (∀ a (h : a < ws.length), readCell (loaded ws s).mem a = ws[a]) ∧
    (∀ a, ws.length ≤ a → readCell (loaded ws s).mem a = 0) ∧ (loaded ws s).mlen = ws.length

/-- `MLEN` is unobservable, and so is `IN_DATA` while `IN_VALID = 0`: states that differ in nothing else step to states
that differ in nothing else (20_memory R66, 10_state R43). -/
def Obligations.HiddenStateIsUnobservable : Prop :=
  ∀ s t : State, hideUnobservable s = hideUnobservable t →
    ∃ s' t', step s = .next s' ∧ step t = .next t' ∧ hideUnobservable s' = hideUnobservable t'

/-- Memory changes only by opcodes 1, 2, 3, 7 and 8 and by Load (10_state, the table of state; 20_memory R74). -/
def Obligations.MemoryWriters : Prop :=
  ∀ s t : State, step s = .next t → t.mem ≠ s.mem →
    ServesLoadOrReset s ∨ ∃ i, RunsInstr s i ∧ i.opcode ∈ [Opcode.add, .mul, .inp, .lt, .eq]

/-! ## Registers and status (10_state) -/

/-- The values reset leaves that the spec gives (70_reset R260); `inData` and `memWords` are the model's choice and not
stated (log entries 3 and 4). -/
def Obligations.ResetValues : Prop :=
  State.reset.ip = 0 ∧ State.reset.rb = 0 ∧ State.reset.halted = false ∧ State.reset.faulted = false ∧
    State.reset.faultKind = .noFault ∧ State.reset.out = 0 ∧ State.reset.inValid = false ∧ State.reset.busy = false ∧
    State.reset.mlen = 0 ∧ (∀ a, readCell State.reset.mem a = 0) ∧ statusWord State.reset = 0

/-- The reset state is legal. -/
def Obligations.ResetIsLegal : Prop := LegalState State.reset

/-- Every step, of the core or of the host, keeps the legal states: memory canonical and within `MLEN` and `MEM_WORDS`,
never both flags, a fault kind exactly with a fault, only a Running core busy, the latch valid only while busy
(10_state R37, R40, R45; 20_memory R65). -/
def Obligations.StepKeepsLegal : Prop :=
  ∀ s t : State, LegalState s → step s = .next t → LegalState t

/-- Every step answers a next state: the machine never gets stuck, whatever its memory holds and whatever the host
does (30_encoding R105, R112; 60_exceptions R217). -/
def Obligations.StepAlwaysAnswers : Prop := ∀ s : State, ∃ t, step s = .next t

/-- During an instruction `IP` changes only at its end: not at all when it faults or suspends for input, by its length,
or by a taken jump (10_state R33, R34). -/
def Obligations.InstructionPointerMoves : Prop :=
  ∀ (i : Instr) (s t : State), exec i s = .next t →
    (∃ k, FaultsWith s (exec i s) k) ∨
    (∃ dst, i = .inp dst ∧ s.inValid = false ∧ t.ip = s.ip) ∨
    t.ip.toInt = s.ip.toInt + i.length ∨
    ∃ a b x, ((i = .jt a b ∧ x.toInt ≠ 0) ∨ (i = .jf a b ∧ x.toInt = 0)) ∧ ReadsAs a s x ∧ ReadsAs b s t.ip

/-- `RB` changes only by opcode 9 and by Load, which sets it to 0 (10_state R36). -/
def Obligations.RelativeBaseWriters : Prop :=
  (∀ s t : State, step s = .next t → t.rb ≠ s.rb →
    (ServesLoadOrReset s ∧ t.rb = 0) ∨ ∃ a, RunsInstr s (.arb a)) ∧
  State.reset.rb = 0

/-- `HALTED` is set by opcode 99 and by nothing else, once set it stays set until the next Load, and no instruction
reads it (10_state R38). -/
def Obligations.HaltedFlag : Prop :=
  (∀ s t : State, step s = .next t → s.halted = false → t.halted = true → RunsInstr s .halt) ∧
  (∀ s t : State, step s = .next t → s.halted = true → t.halted = false → ServesLoadOrReset s) ∧
  ∀ (i : Instr) (s t : State) (b : Bool), exec i s = .next t →
    ∃ u, exec i { s with halted := b } = .next u ∧ u = { t with halted := u.halted }

/-- `FAULTED` and `FAULT_KIND` are written by fault entry and by Load alone, and no instruction reads them
(10_state R39, R40). -/
def Obligations.FaultedFlag : Prop :=
  (∀ s t : State, step s = .next t → (t.faulted ≠ s.faulted ∨ t.faultKind ≠ s.faultKind) →
    (ServesLoadOrReset s ∧ t.faulted = false ∧ t.faultKind = .noFault) ∨
    ∃ k, k ≠ .noFault ∧ s.busy = true ∧ FaultsWith (takeMove s) (step s) k) ∧
  ∀ (i : Instr) (s t : State) (b : Bool) (k : FaultKind), exec i s = .next t →
    ∃ u, exec i { s with faulted := b, faultKind := k } = .next u ∧
      u = { t with faulted := u.faulted, faultKind := u.faultKind }

/-- `OUT` changes only by opcode 4 and by Load, which sets it to 0, and no instruction reads it (10_state R42). -/
def Obligations.OutputRegister : Prop :=
  (∀ s t : State, step s = .next t → t.out ≠ s.out →
    (ServesLoadOrReset s ∧ t.out = 0) ∨ ∃ a, RunsInstr s (.out a) ∧ deliveredOutcome t = some (.produced t.out)) ∧
  ∀ (i : Instr) (s t : State) (w : Word), exec i s = .next t →
    ∃ u, exec i { s with out := w } = .next u ∧ u = { t with out := u.out }

/-- The bits of `STATUS` and the registers behind the four Inspect numbers (10_state R41), with the codes of the fault
kinds (R40). -/
def Obligations.StatusLayout : Prop :=
  (∀ s : State,
    (statusWord s).getLsbD 0 = s.halted ∧ (statusWord s).getLsbD 1 = s.faulted ∧
    (statusWord s).extractLsb' 2 2 = 0 ∧ (statusWord s).extractLsb' 4 3 = faultCode s.faultKind ∧
    (statusWord s).extractLsb' 7 57 = 0 ∧
    inspectRegister 0 s = some s.ip ∧ inspectRegister 1 s = some s.rb ∧ inspectRegister 2 s = some (statusWord s) ∧
    inspectRegister 3 s = some s.out ∧ ∀ r, 4 ≤ r → inspectRegister r s = none) ∧
  [FaultKind.noFault, .invalidAddress, .invalidWriteTarget, .unknownOpcode, .invalidMode, .arithmeticOverflow,
    .outOfStorage].map faultCode = [0, 1, 2, 3, 4, 5, 6]

/-- The capacity is the core's own: no step changes it (20_memory R67; it is the model's field, log entry 3). -/
def Obligations.CapacityIsFixed : Prop :=
  ∀ s t : State, step s = .next t → t.memWords = s.memWords

/-! ## Steps and faults (30_encoding R112, 60_exceptions) -/

/-- When the words at `IP` decode to a well-formed instruction and lie in the memory, a step of a busy core that the
host leaves alone is that instruction's, on the state whose `MLEN` covers its words (30_encoding R112, 00_scope R8). -/
def Obligations.StepRunsTheDecodedInstruction : Prop :=
  ∀ (s : State) (i : Instr) (rest : List Word),
    servedOp s = none → s.busy = true → decode (wordsAt s s.ip.toInt 4) = .ok (i, rest) → i.wellFormed = true →
    (∀ j : Nat, j < i.length → Accessible s (s.ip.toInt + j)) →
    step s = exec i { takeMove s with mlen := max s.mlen (s.ip.toInt.toNat + i.length) }

/-- The faults of phases 1 to 5 in their order: the fetch at `IP`, the opcode, the modes, the write target's mode, and
the fetch of the parameters (60_exceptions R213, R214, R220). -/
def Obligations.FetchFaultsInOrder : Prop :=
  ∀ s : State, servedOp s = none → s.busy = true →
    (∀ k, AddressFaults s s.ip.toInt k → FaultsWith (takeMove s) (step s) k) ∧
    (Accessible s s.ip.toInt → ∀ w, readCell s.mem s.ip.toInt.toNat = w →
      (w.toInt < 0 ∨ w.toInt % 100 ∉ opcodeValues → FaultsWith (takeMove s) (step s) .unknownOpcode) ∧
      (0 ≤ w.toInt → w.toInt % 100 ∈ opcodeValues →
        (BadModeDigit w → FaultsWith (takeMove s) (step s) .invalidMode) ∧
        (¬ BadModeDigit w →
          let immediateTarget :=
            (w.toInt % 100 ∈ [(1 : Int), 2, 7, 8] ∧ w.toInt / 10000 % 10 = 1) ∨
              (w.toInt % 100 = 3 ∧ w.toInt / 100 % 10 = 1)
          (immediateTarget → FaultsWith (takeMove s) (step s) .invalidWriteTarget) ∧
          (¬ immediateTarget → ∀ h, decodeHeader w = .ok h →
            (∃ j : Nat, j < h.op.length ∧ ¬ Accessible s (s.ip.toInt + j)) →
            FaultsWith (takeMove s) (step s) .outOfStorage))))

/-- Fault entry is precise: an instruction step that stops with a fault has set `FAULTED` and `FAULT_KIND` and changed
neither `IP` nor `RB` nor `OUT` nor memory (60_exceptions R217, R218). -/
def Obligations.FaultsArePrecise : Prop :=
  ∀ (s t : State) (k : FaultKind), servedOp s = none → s.busy = true → step s = .next t → t.busy = false →
    deliveredOutcome t = some (.fault k) → k ≠ .noFault ∧ FaultsWith (takeMove s) (step s) k

/-- At every stop the latch and `BUSY` are cleared and one outcome is delivered; a step that does not stop delivers
nothing (60_exceptions R204). -/
def Obligations.StopsDeliverOneOutcome : Prop :=
  ∀ s t : State, servedOp s = none → s.busy = true → step s = .next t →
    (t.busy = true ∧ t.hostInbox = s.hostInbox) ∨
    (t.busy = false ∧ t.inValid = false ∧ ∃ o, t.hostInbox = .outcome o :: s.hostInbox)

/-- Which event stops an invocation: an output, a halt, an input that finds no value, or a fault, and no other
(60_exceptions R203); a step that goes on has run an instruction that is none of these. -/
def Obligations.CausesOfStops : Prop :=
  (∀ (s t : State) (o : InvokeOutcome), servedOp s = none → s.busy = true → step s = .next t → t.busy = false →
    deliveredOutcome t = some o →
    match o with
    | .produced v => ∃ a, RunsInstr s (.out a) ∧ ReadsAs a s v ∧ t.out = v
    | .halted => RunsInstr s .halt ∧ t.halted = true
    | .needInput => ∃ dst, RunsInstr s (.inp dst) ∧ s.inValid = false
    | .fault k => t.faulted = true ∧ t.faultKind = k) ∧
  ∀ s t : State, servedOp s = none → s.busy = true → step s = .next t → t.busy = true →
    ∃ i, RunsInstr s i ∧ i.opcode ≠ .out ∧ i.opcode ≠ .halt ∧ (i.opcode = .inp → s.inValid = true) ∧
      t.faulted = s.faulted ∧ t.hostInbox = s.hostInbox

/-! ## Invocations and the host (60_exceptions, 70_reset) -/

/-- Invoke: refused while busy; a Halted or Faulted core answers at once with no state change; a Running core takes the
value into its latch and is busy, and every step of a busy core that the host leaves alone is an instruction, until a
stop (60_exceptions R202, R230). That the refusal puts a host error into the host's inbox is the model's reading of R230
and R233 (log entry 10). -/
def Obligations.InvokeRule : Prop :=
  (∀ (v : Word) (s : State),
    (s.busy = true → hostIssue (.invoke v) s = { s with hostInbox := .hostError :: s.hostInbox }) ∧
    (s.busy = false → s.halted = true →
      hostIssue (.invoke v) s = { s with hostInbox := .outcome .halted :: s.hostInbox }) ∧
    (s.busy = false → s.halted = false → s.faulted = true →
      hostIssue (.invoke v) s = { s with hostInbox := .outcome (.fault s.faultKind) :: s.hostInbox }) ∧
    (s.busy = false → s.halted = false → s.faulted = false →
      hostIssue (.invoke v) s = { s with inData := v, inValid := true, busy := true })) ∧
  ∀ s : State, s.busy = true → servedOp s = none → step s = stepInstr (takeMove s)

/-- Load: refused with nothing changed unless the core is idle, every program word is a Word and the program fits; else
memory holds the program then zeros and every register its reset value (60_exceptions R231, R230). The host error of a
refusal is the model's reading (log entry 10), and so is that Load keeps the capacity and the host's own fields and gives
nothing back (log entry 15). -/
def Obligations.LoadRule : Prop :=
  ∀ (p : List Int) (s : State),
    (s.busy = true ∨ (∃ x ∈ p, fits64 x = false) ∨ (∃ c, s.memWords = some c ∧ c < p.length) →
      hostIssue (.load p) s = { s with hostInbox := .hostError :: s.hostInbox }) ∧
    (s.busy = false → (∀ x ∈ p, fits64 x = true) → (∀ c, s.memWords = some c → p.length ≤ c) →
      ∃ t, hostIssue (.load p) s = t ∧
        (∀ a (h : a < p.length), (readCell t.mem a).toInt = p[a]) ∧ (∀ a, p.length ≤ a → readCell t.mem a = 0) ∧
        t.mlen = p.length ∧ t.ip = 0 ∧ t.rb = 0 ∧ t.halted = false ∧ t.faulted = false ∧ t.faultKind = .noFault ∧
        t.out = 0 ∧ t.inValid = false ∧ t.busy = false ∧
        t.memWords = s.memWords ∧ t.hostMoves = s.hostMoves ∧ t.hostInbox = s.hostInbox)

/-- Reset is accepted at any time: nothing of a running invocation survives and no outcome is delivered
(70_reset R261): two cores of the same capacity and host differ in nothing observable after it. That Reset keeps the
host's moves and gives nothing back is the model's reading (log entry 15). -/
def Obligations.ResetAtAnyTime : Prop :=
  ∀ s : State, ∃ t, hostIssue .reset s = t ∧ (∀ a, readCell t.mem a = 0) ∧ t.mlen = 0 ∧ t.ip = 0 ∧ t.rb = 0 ∧
    t.halted = false ∧ t.faulted = false ∧ t.faultKind = .noFault ∧ t.out = 0 ∧ t.inValid = false ∧ t.busy = false ∧
    t.hostInbox = s.hostInbox ∧
    ∀ u : State, u.memWords = s.memWords → u.hostMoves = s.hostMoves → u.hostInbox = s.hostInbox →
      hideUnobservable (hostIssue .reset u) = hideUnobservable t

/-- Inspect and InspectMem, allowed while idle only, give the register or word and change nothing; a reserved number or
an address outside the memory is refused (60_exceptions R232, R230). That a refusal puts a host error into the host's
inbox is the model's reading of R230 and R233 (log entry 10). -/
def Obligations.InspectRule : Prop :=
  ∀ s : State,
    (s.busy = true → ∀ r a,
      hostIssue (.inspect r) s = { s with hostInbox := .hostError :: s.hostInbox } ∧
      hostIssue (.inspectMem a) s = { s with hostInbox := .hostError :: s.hostInbox }) ∧
    (s.busy = false →
      (∀ r w, (r, w) ∈ [(0, s.ip), (1, s.rb), (2, statusWord s), (3, s.out)] →
        hostIssue (.inspect r) s = { s with hostInbox := .value w :: s.hostInbox }) ∧
      (∀ r, 4 ≤ r → hostIssue (.inspect r) s = { s with hostInbox := .hostError :: s.hostInbox }) ∧
      (∀ a, Accessible s a →
        hostIssue (.inspectMem a) s = { s with hostInbox := .value (readCell s.mem a.toNat) :: s.hostInbox }) ∧
      ∀ a k, AddressFaults s a k →
        hostIssue (.inspectMem a) s = { s with hostInbox := .hostError :: s.hostInbox })

/-- A Halted or Faulted core that is idle stays so through every step but Load or Reset, with its whole checkpoint, and
every Invoke returns the same terminal outcome (60_exceptions R219). -/
def Obligations.TerminalStatusStays : Prop :=
  ∀ s t : State, s.busy = false → s.halted = true ∨ s.faulted = true → step s = .next t → ¬ ServesLoadOrReset s →
    SameCheckpoint s t ∧ t.busy = false ∧
    (∀ v, servedOp s = some (.invoke v) →
      t.hostInbox = .outcome (if s.halted then .halted else .fault s.faultKind) :: s.hostInbox)

/-- After `NeedInput` the next invocation begins at the input instruction that suspended, with the saved `RB` and memory
and with its own value in the latch (60_exceptions R205, 41_io R140). -/
def Obligations.NeedInputResumes : Prop :=
  ∀ (s t : State) (dst : Param) (v : Word), LegalState s → RunsInstr s (.inp dst) → s.inValid = false →
    step s = .next t → deliveredOutcome t = some .needInput → t.busy = false →
    ∃ u, hostIssue (.invoke v) t = u ∧ u.ip = s.ip ∧ u.rb = s.rb ∧ u.mem = s.mem ∧ u.out = s.out ∧
      u.inData = v ∧ u.inValid = true ∧ u.busy = true

/-- An invocation that stops delivers exactly one outcome, and the run status after it is the one the outcome says; the
outcomes have the codes 0 to 3 (60_exceptions R201). -/
def Obligations.InvocationOutcome : Prop :=
  (∀ (n : Nat) (v : Word) (s t : State) (o : InvokeOutcome), LegalState s → s.busy = false →
    invokeWithin n v s = some (o, t) →
    t.busy = false ∧ t.hostInbox = .outcome o :: s.hostInbox ∧
      match o with
      | .produced w => runStatus t = some .running ∧ t.out = w
      | .halted => runStatus t = some .halted
      | .fault k => runStatus t = some .faulted ∧ t.faultKind = k ∧ k ≠ .noFault
      | .needInput => runStatus t = some .running) ∧
  ∀ w k, outcomeCode (.produced w) = 0 ∧ outcomeCode .halted = 1 ∧ outcomeCode (.fault k) = 2 ∧
    outcomeCode .needInput = 3

/-- The outcome of an invocation and the checkpoint it leaves are a function of the checkpoint and the supplied value
alone (60_exceptions R206). -/
def Obligations.CheckpointDeterminesInvocation : Prop :=
  ∀ (n : Nat) (v : Word) (s t s' : State) (o : InvokeOutcome), SameCheckpoint s t → s.busy = false → t.busy = false →
    invokeWithin n v s = some (o, s') →
    ∃ t', invokeWithin n v t = some (o, t') ∧ SameCheckpoint s' t'

/-- A taken jump to itself is an infinite execution: no number of instructions brings it to a stop (60_exceptions R207,
42_jump R150, R151). -/
def Obligations.JumpToItselfNeverStops : Prop :=
  ∀ (s : State) (x : Word) (rest : List Word), s.busy = true →
    (∀ j : Nat, j < 3 → Accessible s (s.ip.toInt + j)) →
    (decode (wordsAt s s.ip.toInt 4) = .ok (.jt ⟨.immediate, x⟩ ⟨.immediate, s.ip⟩, rest) ∧ x ≠ 0) ∨
      (decode (wordsAt s s.ip.toInt 4) = .ok (.jf ⟨.immediate, x⟩ ⟨.immediate, s.ip⟩, rest) ∧ x = 0) →
    NeverStops s

/-- The first Invoke after a Load begins at address 0, with the program's first word there (70_reset R262). -/
def Obligations.EntryPoint : Prop :=
  ∀ (p : List Int) (v : Word) (s : State), s.busy = false → (∀ x ∈ p, fits64 x = true) →
    (∀ c, s.memWords = some c → p.length ≤ c) →
    ∃ t, hostIssue (.invoke v) (hostIssue (.load p) s) = t ∧ t.ip = 0 ∧ t.busy = true ∧ t.inValid = true ∧
      t.inData = v ∧ (readCell t.mem 0).toInt = p.getD 0 0

/-- An Invoke without a prior Load runs the empty program: its first step fetches 0 at address 0 and faults
`UnknownOpcode`, in a memory that has an address 0 (70_reset R263). -/
def Obligations.InvokeAfterResetFaults : Prop :=
  ∀ (v : Word) (s : State), s.hostMoves = [] → s.memWords ≠ some 0 →
    ∃ t, step (hostIssue (.invoke v) (hostIssue .reset s)) = .next t ∧ t.ip = 0 ∧ t.faulted = true ∧
      t.faultKind = .unknownOpcode ∧ t.hostInbox = .outcome (.fault .unknownOpcode) :: s.hostInbox

/-- Assembling an instruction written in the spec's notation gives its words (30_encoding R115). -/
def Obligations.AssemblyGivesTheEncoding : Prop :=
  ∀ i : Instr,
    assemble [.instr i.opcode ((operands i).map fun p => ⟨p.mode, .lit p.word.toInt⟩)] = some (encode i)

/-- Two runs from the same Load with the same values return the same outcomes and leave the same checkpoint, whatever
the cores held before (70_reset R264, 60_exceptions R206). -/
def Obligations.RunsAreReproducible : Prop :=
  ∀ (n : Nat) (program vs : List Word) (s t s' : State) (os : List InvokeOutcome), s.memWords = t.memWords →
    invokeAll n vs (loaded program s) = some (os, s') →
    ∃ t', invokeAll n vs (loaded program t) = some (os, t') ∧ SameCheckpoint s' t'

/-- Cores share nothing: a step of one leaves every other as it was, its own result is what it gives alone, and steps of
two cores give the same system in either order (60_exceptions R240, R241; 10_state R31). That a system is a list of
states of which a step moves one core, so that running in parallel is interleaving, is the model's choice (log entry
16). -/
def Obligations.CoresAreIsolated : Prop :=
  ∀ (j k : Nat) (cores after : List State), j ≠ k → stepOfCore k cores = .next after →
    after[j]? = cores[j]? ∧
    (∀ s, cores[k]? = some s → ∃ t, step s = .next t ∧ after[k]? = some t) ∧
    ∃ other last, stepOfCore j cores = .next other ∧ stepOfCore j after = .next last ∧ stepOfCore k other = .next last

/-- The signals, one pulse at a time (60_exceptions R234; 70_reset R260). A cycle that raises only `ld_clear` and then
cycles that each raise only `ld_we`, covering the program's words in any order, are Load; one that raises only `start` is
Invoke, with `done` at once exactly in a terminal core; one that raises only `rst` is Reset. While busy every input but
`rst` is ignored. `dbg_rdata` is Inspect and InspectMem of an idle core. That `ld_addr` and `dbg_addr` are read as
unsigned is the model's choice (log entry 17); its other choices, the order of signals raised together among them, are
used by no clause. -/
def Obligations.SignalsRealiseLoadAndInvoke : Prop :=
  (∀ (c : Clocked) (clear : Inputs) (writes : List Inputs) (ws : List Word),
    c.core.busy = false → loadable c.core.memWords (ws.map BitVec.toInt) = true → Raises clear false false true false →
    (∀ x ∈ writes, Raises x false false false true ∧ ws[x.ldAddr.toNat]? = some x.ldData) →
    (∀ a < ws.length, ∃ x ∈ writes, x.ldAddr.toNat = a) →
    (clockEdges (clear :: writes) c).core = hostIssue (.load (ws.map BitVec.toInt)) c.core ∧
      (clockEdges (clear :: writes) c).outcome = 0) ∧
  (∀ (c : Clocked) (x : Inputs), c.core.busy = false → Raises x false true false false →
    (clockEdge x c).core = hostIssue (.invoke x.inData) c.core ∧
    ((clockEdge x c).done = true ↔ c.core.halted = true ∨ c.core.faulted = true) ∧
    (c.core.halted = true → (clockEdge x c).outcome = outcomeCode .halted) ∧
    (c.core.halted = false → c.core.faulted = true →
      (clockEdge x c).outcome = outcomeCode (.fault c.core.faultKind))) ∧
  (∀ (c : Clocked) (x : Inputs), Raises x true false false false →
    (clockEdge x c).core = hostIssue .reset c.core ∧ (clockEdge x c).outcome = 0) ∧
  (∀ (c : Clocked) (x y : Inputs), c.core.busy = true → x.rst = false → y.rst = false →
    clockEdge x c = clockEdge y c) ∧
  ∀ s : State, s.busy = false →
    (∀ r : Nat, r < 4 → dbgRdata false (BitVec.ofNat 64 r) s = inspectRegister r s) ∧
    ∀ a : BitVec 64, Accessible s a.toNat → dbgRdata true a s = some (readCell s.mem a.toNat)

/-- A run exists only after an accepted Load; the run that ends well leaves the core idle and Halted, with `HALTED = 1`
and `FAULTED = 0`, and a run whose last outcome is a fault leaves it Faulted with that kind, which is no final state
(60_exceptions R223; 92 D27). -/
def Obligations.RunsEnd : Prop :=
  ∀ (program : List Int) (core t : State) (os : List InvokeOutcome),
    (∀ last, IsRun program core os last t → core.busy = false ∧ (∀ x ∈ program, fits64 x = true) ∧
      (∀ c, core.memWords = some c → program.length ≤ c) ∧ t.busy = false ∧ deliveredOutcome t = some last) ∧
    (EndsWell program core os t → t.halted = true ∧ t.faulted = false) ∧
    ∀ k, IsRun program core os (.fault k) t → t.halted = false ∧ t.faulted = true ∧ t.faultKind = k

/-- The phases of a network are `low..high` in order, each the exact integer (60_exceptions R244; 91 N25), and a trial
whose Load is refused fails; that it fails, and with this reason, is the model's choice (log entry 18). -/
def Obligations.NetworkPhasesAndLoads : Prop :=
  (∀ low high : Word, low.toInt ≤ high.toInt →
    ((networkPhases low high).length : Int) = high.toInt - low.toInt + 1 ∧
    ∀ (k : Nat) (h : k < (networkPhases low high).length), (networkPhases low high)[k].toInt = low.toInt + k) ∧
  ∀ (n : Nat) (memWords : Option Nat) (program : List Int) (phase s0 : Word) (phases : List Word),
    loadable memWords program = false →
    trial n memWords program (phase :: phases) s0 = some (.failed (.loadRefused 0))
end

