-- ==== Sys2Proof/Laws/Decode.lean ====
section
/-! SUPPORT. The decoder: its tables inverted, canonical words, and what an accepted list of words decodes to. -/

namespace Sys2Proof

theorem ofDigit_some {d : Nat} {m : Mode} (h : Mode.ofDigit? d = some m) : d = m.toDigit := by
  unfold Mode.ofDigit? at h; split at h <;> cases h <;> rfl

theorem ofDigit_of_le {d : Nat} (h : d ≤ 2) : ∃ m, Mode.ofDigit? d = some m := by
  interval_cases d <;> exact ⟨_, rfl⟩

theorem ofDigit_of_gt {d : Nat} (h : 2 < d) : Mode.ofDigit? d = none := by
  unfold Mode.ofDigit?; split <;> first | omega | rfl

theorem ofCode_some {d : Nat} {op : Opcode} (h : Opcode.ofCode? d = some op) : d = op.toCode := by
  unfold Opcode.ofCode? at h; split at h <;> cases h <;> rfl

/-- The ten opcode values are the ones that stand for an opcode (30_encoding R96). -/
theorem mem_opcodeValues {d : Nat} : (d : Int) ∈ opcodeValues ↔ ∃ op, Opcode.ofCode? d = some op := by
  constructor
  · intro h
    simp only [opcodeValues, List.mem_cons, List.not_mem_nil, or_false] at h
    have : d = 1 ∨ d = 2 ∨ d = 3 ∨ d = 4 ∨ d = 5 ∨ d = 6 ∨ d = 7 ∨ d = 8 ∨ d = 9 ∨ d = 99 := by omega
    rcases this with rfl | rfl | rfl | rfl | rfl | rfl | rfl | rfl | rfl | rfl <;> exact ⟨_, rfl⟩
  · rintro ⟨op, h⟩
    rw [ofCode_some h]
    cases op <;> decide

/-- A canonical word decodes to its opcode and modes. -/
theorem decodeHeader_canonicalWord (op : Opcode) (m1 m2 m3 : Mode) :
    decodeHeader (canonicalWord op m1 m2 m3) = .ok ⟨op, m1, m2, m3⟩ := by
  cases op <;> cases m1 <;> cases m2 <;> cases m3 <;> decide

/-- What accepted words are: a header, enough parameter words, and the words after them. -/
theorem decode_ok {w : Word} {ws rest : List Word} {i : Instr} (h : decode (w :: ws) = .ok (i, rest)) :
    ∃ hd, decodeHeader w = .ok hd ∧ hd.op.params ≤ ws.length ∧ i = hd.toInstr ws ∧ rest = ws.drop hd.op.params := by
  simp only [decode] at h
  cases hh : decodeHeader w with
  | error k => rw [hh] at h; cases h
  | ok hd =>
    rw [hh] at h
    simp only at h
    by_cases hl : ws.length < hd.op.params
    · rw [if_pos hl] at h; cases h
    · rw [if_neg hl] at h; cases h; exact ⟨hd, rfl, by omega, rfl, rfl⟩

theorem toInstr_opcode (h : Header) (ws : List Word) : (h.toInstr ws).opcode = h.op := by
  obtain ⟨op, m1, m2, m3⟩ := h; cases op <;> rfl

theorem toInstr_length (h : Header) (ws : List Word) : (h.toInstr ws).length = h.op.length := by
  unfold Instr.length; rw [toInstr_opcode]

/-- An instruction reads only as many parameter words as its opcode has. -/
theorem toInstr_take (h : Header) (ws : List Word) : h.toInstr (ws.take h.op.params) = h.toInstr ws := by
  obtain ⟨op, m1, m2, m3⟩ := h
  cases op <;> simp [Header.toInstr, Opcode.params, List.getD]

/-- Phase 4 refuses exactly the instructions that are not well-formed (30_encoding R99). -/
theorem toInstr_wellFormed (h : Header) (ws : List Word) : (h.toInstr ws).wellFormed = !h.badTarget := by
  obtain ⟨op, m1, m2, m3⟩ := h
  cases op <;> cases m1 <;> cases m2 <;> cases m3 <;> rfl

end Sys2Proof
end

