-- ==== Sys2Proof/Laws/Word.lean ====
section
/-! SUPPORT. The range check: which exact integers are Words, and that narrowing keeps the value. -/

namespace Sys2Proof.Machine

theorem fits64_iff (v : Int) : fits64 v = true ↔ -2 ^ 63 ≤ v ∧ v ≤ 2 ^ 63 - 1 := by
  simp [fits64]

theorem fits64_toInt (w : Word) : fits64 w.toInt = true := by
  have h1 := BitVec.le_toInt w
  have h2 := BitVec.toInt_lt (x := w)
  rw [fits64_iff]; norm_num at h1 h2 ⊢; omega

theorem toInt_ofInt_of_fits {v : Int} (h : fits64 v = true) : (BitVec.ofInt 64 v).toInt = v := by
  rw [fits64_iff] at h
  rw [BitVec.toInt_ofInt, Int.bmod_def]
  norm_num at h ⊢
  split <;> omega

/-- A narrowed integer is the integer it was (40_arithmetic R130). -/
theorem narrow?_eq_some {v : Int} {w : Word} : narrow? v = some w ↔ w.toInt = v := by
  unfold narrow?
  constructor
  · intro h
    split at h
    · cases h; exact toInt_ofInt_of_fits ‹_›
    · cases h
  · rintro rfl
    rw [if_pos (fits64_toInt w), BitVec.ofInt_toInt]

theorem narrow?_eq_none {v : Int} : narrow? v = none ↔ fits64 v = false := by
  unfold narrow?; split <;> simp_all

theorem fits64_truthValue (b : Bool) : fits64 (truthValue b) = true := by
  cases b <;> decide

end Sys2Proof.Machine
end

