-- ==== Sys2Proof/Laws/Memory.lean ====
section
/-! SUPPORT. Memory: what a read gives after a write or a load, and that every memory operation keeps the canonical
form (20_memory R61, R62, R65, R75). -/

namespace Sys2Proof.Machine

/-- Every listed address of the tail lies above the head's. -/
theorem wf_tail_above {a : Nat} {v : Word} {m : Memory} (h : Memory.wf ((a, v) :: m) = true) :
    Memory.wf m = true ∧ v ≠ unlistedWord ∧ ∀ c ∈ m, a < c.1 := by
  induction m generalizing a v with
  | nil => simp_all [Memory.wf]
  | cons c m ih =>
    obtain ⟨b, w⟩ := c
    simp only [Memory.wf, Bool.and_eq_true, decide_eq_true_eq] at h
    obtain ⟨⟨hab, hv⟩, hm⟩ := h
    refine ⟨hm, hv, ?_⟩
    intro c hc
    rcases List.mem_cons.mp hc with rfl | hc
    · exact hab
    · exact hab.trans ((ih hm).2.2 c hc)

theorem wf_cons {a : Nat} {v : Word} {m : Memory} (hm : Memory.wf m = true) (hv : v ≠ unlistedWord)
    (ha : ∀ c ∈ m, a < c.1) : Memory.wf ((a, v) :: m) = true := by
  cases m with
  | nil => simpa [Memory.wf] using hv
  | cons c m =>
    have := ha c (List.mem_cons_self ..)
    simp_all [Memory.wf]

/-- Below every listed address memory reads 0. -/
theorem readCell_below {m : Memory} {a : Nat} (h : ∀ c ∈ m, a < c.1) : readCell m a = unlistedWord := by
  cases m with
  | nil => rfl
  | cons c m => simp [readCell, h c (List.mem_cons_self ..)]

theorem mem_writeCell {m : Memory} {a : Nat} {v : Word} {c : Nat × Word} (h : c ∈ writeCell m a v) :
    c ∈ m ∨ c = (a, v) := by
  induction m with
  | nil => unfold writeCell at h; split at h <;> simp_all
  | cons d m ih =>
    obtain ⟨b, w⟩ := d
    unfold writeCell at h
    split at h
    · split at h
      · exact .inl h
      · rcases List.mem_cons.mp h with rfl | h
        · exact .inr rfl
        · exact .inl h
    · split at h
      · split at h
        · exact .inl (List.mem_cons_of_mem _ h)
        · rcases List.mem_cons.mp h with rfl | h
          · exact .inr rfl
          · exact .inl (List.mem_cons_of_mem _ h)
      · rcases List.mem_cons.mp h with rfl | h
        · exact .inl (List.mem_cons_self ..)
        · exact (ih h).imp (List.mem_cons_of_mem _) id

/-- A write keeps the canonical form. -/
theorem writeCell_wf {m : Memory} (a : Nat) (v : Word) (h : m.wf = true) : (writeCell m a v).wf = true := by
  induction m with
  | nil => unfold writeCell; split <;> simp_all [Memory.wf]
  | cons d m ih =>
    obtain ⟨b, w⟩ := d
    obtain ⟨hm, hw, hb⟩ := wf_tail_above h
    unfold writeCell
    split
    · split
      · exact h
      · refine wf_cons h ‹_› fun c hc => ?_
        rcases List.mem_cons.mp hc with rfl | hc
        · assumption
        · exact lt_trans ‹_› (hb c hc)
    · split
      · split
        · exact hm
        · subst_vars; exact wf_cons hm ‹_› hb
      · refine wf_cons (ih hm) hw fun c hc => ?_
        rcases mem_writeCell hc with hc | rfl
        · exact hb c hc
        · change b < a; omega

/-- A read after a write: the word written at its address, and every other address as before (20_memory R75). -/
theorem readCell_writeCell {m : Memory} (h : m.wf = true) (a b : Nat) (v : Word) :
    readCell (writeCell m a v) b = if b = a then v else readCell m b := by
  induction m with
  | nil =>
    unfold writeCell
    split
    · simp_all [readCell]
    · simp only [readCell]; split_ifs <;> first | rfl | omega
  | cons d m ih =>
    obtain ⟨c, w⟩ := d
    obtain ⟨hm, _, hc⟩ := wf_tail_above h
    have ih := ih hm
    unfold writeCell
    by_cases hac : a < c
    · rw [if_pos hac]
      by_cases hv : v = unlistedWord
      · rw [if_pos hv]
        by_cases hba : b = a
        · subst hba hv; simp [readCell, hac]
        · rw [if_neg hba]
      · rw [if_neg hv]
        simp only [readCell]
        split_ifs <;> first | rfl | omega
    · rw [if_neg hac]
      by_cases hac' : a = c
      · rw [if_pos hac']
        subst hac'
        by_cases hv : v = unlistedWord
        · rw [if_pos hv]
          by_cases hba : b = a
          · subst hba; rw [if_pos rfl, hv]; exact readCell_below hc
          · rw [if_neg hba]
            simp only [readCell]
            by_cases hlt : b < a
            · rw [if_pos hlt]; exact readCell_below fun e he => hlt.trans (hc e he)
            · rw [if_neg hlt, if_neg hba]
        · rw [if_neg hv]
          simp only [readCell]
          split_ifs <;> first | rfl | omega
      · rw [if_neg hac']
        simp only [readCell, ih]
        split_ifs <;> first | rfl | omega

/-- The canonical form is one: two memories in it that hold the same words are the same list. -/
theorem memory_ext {m k : Memory} (hm : m.wf = true) (hk : k.wf = true) (h : ∀ a, readCell m a = readCell k a) :
    m = k := by
  induction m generalizing k with
  | nil =>
    cases k with
    | nil => rfl
    | cons c k =>
      have := h c.1
      simp only [readCell, lt_irrefl, if_false, if_true] at this
      exact absurd this.symm (wf_tail_above hk).2.1
  | cons c m ih =>
    obtain ⟨a, v⟩ := c
    obtain ⟨hm', hv, hma⟩ := wf_tail_above hm
    cases k with
    | nil =>
      have := h a
      simp only [readCell, lt_irrefl, if_false, if_true] at this
      exact absurd this hv
    | cons d k =>
      obtain ⟨b, w⟩ := d
      obtain ⟨hk', hw, hkb⟩ := wf_tail_above hk
      have hab := h a
      have hba := h b
      simp only [readCell, lt_irrefl, if_false, if_true] at hab hba
      have e : a = b := by
        rcases lt_trichotomy a b with hlt | heq | hgt
        · rw [if_pos hlt] at hab; exact absurd hab hv
        · exact heq
        · rw [if_pos hgt] at hba; exact absurd hba.symm hw
      subst e
      simp only [lt_irrefl, if_false, if_true] at hab
      subst hab
      congr 1
      refine ih hm' hk' fun n => ?_
      by_cases hn : n ≤ a
      · rw [readCell_below fun c hc => lt_of_le_of_lt hn (hma c hc),
          readCell_below fun c hc => lt_of_le_of_lt hn (hkb c hc)]
      · have := h n
        simpa only [readCell, if_neg (by omega : ¬ n < a), if_neg (by omega : ¬ n = a)] using this

theorem mem_cellsFrom {ws : List Word} {a : Nat} {c : Nat × Word} (h : c ∈ cellsFrom a ws) :
    a ≤ c.1 ∧ c.1 < a + ws.length := by
  induction ws generalizing a with
  | nil => simp [cellsFrom] at h
  | cons w ws ih =>
    unfold cellsFrom at h
    rw [List.length_cons]
    split at h
    · have := ih h; omega
    · rcases List.mem_cons.mp h with rfl | h
      · change a ≤ a ∧ a < _; omega
      · have := ih h; omega

/-- A loaded memory is in canonical form. -/
theorem cellsFrom_wf (a : Nat) (ws : List Word) : (cellsFrom a ws).wf = true := by
  induction ws generalizing a with
  | nil => rfl
  | cons w ws ih =>
    unfold cellsFrom
    split
    · exact ih _
    · exact wf_cons (ih _) ‹_› fun c hc => (mem_cellsFrom hc).1

/-- What a loaded memory reads: the program's word, and 0 beyond it (20_memory R62). -/
theorem readCell_cellsFrom (ws : List Word) (a b : Nat) :
    readCell (cellsFrom a ws) b = if a ≤ b then ws.getD (b - a) 0 else 0 := by
  induction ws generalizing a with
  | nil => simp [cellsFrom, readCell, unlistedWord]
  | cons w ws ih =>
    have key : readCell (cellsFrom (a + 1) ws) b = if a + 1 ≤ b then ws.getD (b - (a + 1)) 0 else 0 := ih _
    have step : a + 1 ≤ b → (w :: ws).getD (b - a) 0 = ws.getD (b - (a + 1)) 0 := by
      intro h
      rw [show b - a = (b - (a + 1)) + 1 by omega]; rfl
    unfold cellsFrom
    split
    · rename_i hw
      rw [key]
      by_cases h1 : a + 1 ≤ b
      · rw [if_pos h1, if_pos (by omega), step h1]
      · rw [if_neg h1]
        by_cases h2 : a ≤ b
        · have : b - a = 0 := by omega
          rw [if_pos h2, this]; exact hw.symm
        · rw [if_neg h2]
    · simp only [readCell]
      by_cases h1 : b < a
      · rw [if_pos h1, if_neg (by omega)]; rfl
      · rw [if_neg h1]
        by_cases h2 : b = a
        · subst h2; simp
        · rw [if_neg h2, key, if_pos (by omega), if_pos (by omega), step (by omega)]

theorem cellsBelow_iff {m : Memory} {n : Nat} : cellsBelow m n = true ↔ ∀ c ∈ m, c.1 < n := by
  simp [cellsBelow, List.all_eq_true]

theorem cellsBelow_mono {m : Memory} {n k : Nat} (h : cellsBelow m n = true) (hnk : n ≤ k) :
    cellsBelow m k = true := by
  rw [cellsBelow_iff] at *; exact fun c hc => lt_of_lt_of_le (h c hc) hnk

theorem cellsBelow_writeCell {m : Memory} {n : Nat} {a : Nat} {v : Word} (h : cellsBelow m n = true) (ha : a < n) :
    cellsBelow (writeCell m a v) n = true := by
  rw [cellsBelow_iff] at *
  intro c hc
  rcases mem_writeCell hc with hc | rfl
  · exact h c hc
  · exact ha

theorem cellsBelow_cellsFrom (ws : List Word) : cellsBelow (cellsFrom 0 ws) ws.length = true := by
  rw [cellsBelow_iff]; intro c hc; have := mem_cellsFrom hc; omega

end Sys2Proof.Machine
end

