-- ==== Sys2Proof/Laws/State.lean ====
section
/-! SUPPORT. One lemma per field per update of the state, so that no proof unfolds a record update. -/

namespace Sys2Proof.Machine

/-- The state with its memory length set. -/
def State.withMlen (s : State) (n : Nat) : State := { s with mlen := n }

@[simp] theorem withMlen_ip (s : State) (n : Nat) : (s.withMlen n).ip = s.ip := rfl
@[simp] theorem withMlen_rb (s : State) (n : Nat) : (s.withMlen n).rb = s.rb := rfl
@[simp] theorem withMlen_halted (s : State) (n : Nat) : (s.withMlen n).halted = s.halted := rfl
@[simp] theorem withMlen_faulted (s : State) (n : Nat) : (s.withMlen n).faulted = s.faulted := rfl
@[simp] theorem withMlen_faultKind (s : State) (n : Nat) : (s.withMlen n).faultKind = s.faultKind := rfl
@[simp] theorem withMlen_out (s : State) (n : Nat) : (s.withMlen n).out = s.out := rfl
@[simp] theorem withMlen_inData (s : State) (n : Nat) : (s.withMlen n).inData = s.inData := rfl
@[simp] theorem withMlen_inValid (s : State) (n : Nat) : (s.withMlen n).inValid = s.inValid := rfl
@[simp] theorem withMlen_busy (s : State) (n : Nat) : (s.withMlen n).busy = s.busy := rfl
@[simp] theorem withMlen_mlen (s : State) (n : Nat) : (s.withMlen n).mlen = n := rfl
@[simp] theorem withMlen_mem (s : State) (n : Nat) : (s.withMlen n).mem = s.mem := rfl
@[simp] theorem withMlen_memWords (s : State) (n : Nat) : (s.withMlen n).memWords = s.memWords := rfl
@[simp] theorem withMlen_hostMoves (s : State) (n : Nat) : (s.withMlen n).hostMoves = s.hostMoves := rfl
@[simp] theorem withMlen_hostInbox (s : State) (n : Nat) : (s.withMlen n).hostInbox = s.hostInbox := rfl

@[simp] theorem extend_ip (a : Nat) (s : State) : (extend a s).ip = s.ip := rfl
@[simp] theorem extend_rb (a : Nat) (s : State) : (extend a s).rb = s.rb := rfl
@[simp] theorem extend_halted (a : Nat) (s : State) : (extend a s).halted = s.halted := rfl
@[simp] theorem extend_faulted (a : Nat) (s : State) : (extend a s).faulted = s.faulted := rfl
@[simp] theorem extend_faultKind (a : Nat) (s : State) : (extend a s).faultKind = s.faultKind := rfl
@[simp] theorem extend_out (a : Nat) (s : State) : (extend a s).out = s.out := rfl
@[simp] theorem extend_inData (a : Nat) (s : State) : (extend a s).inData = s.inData := rfl
@[simp] theorem extend_inValid (a : Nat) (s : State) : (extend a s).inValid = s.inValid := rfl
@[simp] theorem extend_busy (a : Nat) (s : State) : (extend a s).busy = s.busy := rfl
@[simp] theorem extend_mlen (a : Nat) (s : State) : (extend a s).mlen = if s.mlen ≤ a then a + 1 else s.mlen := rfl
@[simp] theorem extend_mem (a : Nat) (s : State) : (extend a s).mem = s.mem := rfl
@[simp] theorem extend_memWords (a : Nat) (s : State) : (extend a s).memWords = s.memWords := rfl
@[simp] theorem extend_hostMoves (a : Nat) (s : State) : (extend a s).hostMoves = s.hostMoves := rfl
@[simp] theorem extend_hostInbox (a : Nat) (s : State) : (extend a s).hostInbox = s.hostInbox := rfl

@[simp] theorem stop_ip (o : InvokeOutcome) (s : State) : (stop o s).ip = s.ip := rfl
@[simp] theorem stop_rb (o : InvokeOutcome) (s : State) : (stop o s).rb = s.rb := rfl
@[simp] theorem stop_halted (o : InvokeOutcome) (s : State) : (stop o s).halted = s.halted := rfl
@[simp] theorem stop_faulted (o : InvokeOutcome) (s : State) : (stop o s).faulted = s.faulted := rfl
@[simp] theorem stop_faultKind (o : InvokeOutcome) (s : State) : (stop o s).faultKind = s.faultKind := rfl
@[simp] theorem stop_out (o : InvokeOutcome) (s : State) : (stop o s).out = s.out := rfl
@[simp] theorem stop_inData (o : InvokeOutcome) (s : State) : (stop o s).inData = s.inData := rfl
@[simp] theorem stop_inValid (o : InvokeOutcome) (s : State) : (stop o s).inValid = false := rfl
@[simp] theorem stop_busy (o : InvokeOutcome) (s : State) : (stop o s).busy = false := rfl
@[simp] theorem stop_mlen (o : InvokeOutcome) (s : State) : (stop o s).mlen = s.mlen := rfl
@[simp] theorem stop_mem (o : InvokeOutcome) (s : State) : (stop o s).mem = s.mem := rfl
@[simp] theorem stop_memWords (o : InvokeOutcome) (s : State) : (stop o s).memWords = s.memWords := rfl
@[simp] theorem stop_hostMoves (o : InvokeOutcome) (s : State) : (stop o s).hostMoves = s.hostMoves := rfl
@[simp] theorem stop_hostInbox (o : InvokeOutcome) (s : State) : (stop o s).hostInbox = .outcome o :: s.hostInbox := rfl

@[simp] theorem enterFault_ip (k : FaultKind) (s : State) : (enterFault k s).ip = s.ip := rfl
@[simp] theorem enterFault_rb (k : FaultKind) (s : State) : (enterFault k s).rb = s.rb := rfl
@[simp] theorem enterFault_halted (k : FaultKind) (s : State) : (enterFault k s).halted = s.halted := rfl
@[simp] theorem enterFault_faulted (k : FaultKind) (s : State) : (enterFault k s).faulted = true := rfl
@[simp] theorem enterFault_faultKind (k : FaultKind) (s : State) : (enterFault k s).faultKind = k := rfl
@[simp] theorem enterFault_out (k : FaultKind) (s : State) : (enterFault k s).out = s.out := rfl
@[simp] theorem enterFault_inData (k : FaultKind) (s : State) : (enterFault k s).inData = s.inData := rfl
@[simp] theorem enterFault_inValid (k : FaultKind) (s : State) : (enterFault k s).inValid = false := rfl
@[simp] theorem enterFault_busy (k : FaultKind) (s : State) : (enterFault k s).busy = false := rfl
@[simp] theorem enterFault_mlen (k : FaultKind) (s : State) : (enterFault k s).mlen = s.mlen := rfl
@[simp] theorem enterFault_mem (k : FaultKind) (s : State) : (enterFault k s).mem = s.mem := rfl
@[simp] theorem enterFault_memWords (k : FaultKind) (s : State) : (enterFault k s).memWords = s.memWords := rfl
@[simp] theorem enterFault_hostMoves (k : FaultKind) (s : State) : (enterFault k s).hostMoves = s.hostMoves := rfl
@[simp] theorem enterFault_hostInbox (k : FaultKind) (s : State) : (enterFault k s).hostInbox = .outcome (.fault k) :: s.hostInbox := rfl

@[simp] theorem reply_ip (r : HostReply) (s : State) : (reply r s).ip = s.ip := rfl
@[simp] theorem reply_rb (r : HostReply) (s : State) : (reply r s).rb = s.rb := rfl
@[simp] theorem reply_halted (r : HostReply) (s : State) : (reply r s).halted = s.halted := rfl
@[simp] theorem reply_faulted (r : HostReply) (s : State) : (reply r s).faulted = s.faulted := rfl
@[simp] theorem reply_faultKind (r : HostReply) (s : State) : (reply r s).faultKind = s.faultKind := rfl
@[simp] theorem reply_out (r : HostReply) (s : State) : (reply r s).out = s.out := rfl
@[simp] theorem reply_inData (r : HostReply) (s : State) : (reply r s).inData = s.inData := rfl
@[simp] theorem reply_inValid (r : HostReply) (s : State) : (reply r s).inValid = s.inValid := rfl
@[simp] theorem reply_busy (r : HostReply) (s : State) : (reply r s).busy = s.busy := rfl
@[simp] theorem reply_mlen (r : HostReply) (s : State) : (reply r s).mlen = s.mlen := rfl
@[simp] theorem reply_mem (r : HostReply) (s : State) : (reply r s).mem = s.mem := rfl
@[simp] theorem reply_memWords (r : HostReply) (s : State) : (reply r s).memWords = s.memWords := rfl
@[simp] theorem reply_hostMoves (r : HostReply) (s : State) : (reply r s).hostMoves = s.hostMoves := rfl
@[simp] theorem reply_hostInbox (r : HostReply) (s : State) : (reply r s).hostInbox = r :: s.hostInbox := rfl

@[simp] theorem loaded_ip (ws : List Word) (s : State) : (loaded ws s).ip = 0 := rfl
@[simp] theorem loaded_rb (ws : List Word) (s : State) : (loaded ws s).rb = 0 := rfl
@[simp] theorem loaded_halted (ws : List Word) (s : State) : (loaded ws s).halted = false := rfl
@[simp] theorem loaded_faulted (ws : List Word) (s : State) : (loaded ws s).faulted = false := rfl
@[simp] theorem loaded_faultKind (ws : List Word) (s : State) : (loaded ws s).faultKind = .noFault := rfl
@[simp] theorem loaded_out (ws : List Word) (s : State) : (loaded ws s).out = 0 := rfl
@[simp] theorem loaded_inData (ws : List Word) (s : State) : (loaded ws s).inData = Config.resetInData := rfl
@[simp] theorem loaded_inValid (ws : List Word) (s : State) : (loaded ws s).inValid = false := rfl
@[simp] theorem loaded_busy (ws : List Word) (s : State) : (loaded ws s).busy = false := rfl
@[simp] theorem loaded_mlen (ws : List Word) (s : State) : (loaded ws s).mlen = ws.length := rfl
@[simp] theorem loaded_mem (ws : List Word) (s : State) : (loaded ws s).mem = cellsFrom 0 ws := rfl
@[simp] theorem loaded_memWords (ws : List Word) (s : State) : (loaded ws s).memWords = s.memWords := rfl
@[simp] theorem loaded_hostMoves (ws : List Word) (s : State) : (loaded ws s).hostMoves = s.hostMoves := rfl
@[simp] theorem loaded_hostInbox (ws : List Word) (s : State) : (loaded ws s).hostInbox = s.hostInbox := rfl

@[simp] theorem takeMove_ip (s : State) : (takeMove s).ip = s.ip := by
  unfold takeMove; split <;> first | rfl | (split <;> rfl)
@[simp] theorem takeMove_rb (s : State) : (takeMove s).rb = s.rb := by
  unfold takeMove; split <;> first | rfl | (split <;> rfl)
@[simp] theorem takeMove_halted (s : State) : (takeMove s).halted = s.halted := by
  unfold takeMove; split <;> first | rfl | (split <;> rfl)
@[simp] theorem takeMove_faulted (s : State) : (takeMove s).faulted = s.faulted := by
  unfold takeMove; split <;> first | rfl | (split <;> rfl)
@[simp] theorem takeMove_faultKind (s : State) : (takeMove s).faultKind = s.faultKind := by
  unfold takeMove; split <;> first | rfl | (split <;> rfl)
@[simp] theorem takeMove_out (s : State) : (takeMove s).out = s.out := by
  unfold takeMove; split <;> first | rfl | (split <;> rfl)
@[simp] theorem takeMove_inData (s : State) : (takeMove s).inData = s.inData := by
  unfold takeMove; split <;> first | rfl | (split <;> rfl)
@[simp] theorem takeMove_inValid (s : State) : (takeMove s).inValid = s.inValid := by
  unfold takeMove; split <;> first | rfl | (split <;> rfl)
@[simp] theorem takeMove_busy (s : State) : (takeMove s).busy = s.busy := by
  unfold takeMove; split <;> first | rfl | (split <;> rfl)
@[simp] theorem takeMove_mlen (s : State) : (takeMove s).mlen = s.mlen := by
  unfold takeMove; split <;> first | rfl | (split <;> rfl)
@[simp] theorem takeMove_mem (s : State) : (takeMove s).mem = s.mem := by
  unfold takeMove; split <;> first | rfl | (split <;> rfl)
@[simp] theorem takeMove_memWords (s : State) : (takeMove s).memWords = s.memWords := by
  unfold takeMove; split <;> first | rfl | (split <;> rfl)
@[simp] theorem takeMove_hostInbox (s : State) : (takeMove s).hostInbox = s.hostInbox := by
  unfold takeMove; split <;> first | rfl | (split <;> rfl)

end Sys2Proof.Machine
end

