-- ==== Sys2Proof/Laws/Ops.lean ====
section
/-! SUPPORT. One lemma per shared operation that says everything it can do. Reads change nothing but `MLEN`, so each
lemma speaks of the same state with a longer memory. -/

namespace Sys2Proof.Machine

/-- `n` is a memory length that accesses of `s` may lead to: not shorter, and within the capacity if `s` is. -/
def Grows (s : State) (n : Nat) : Prop :=
  s.mlen ≤ n ∧ (lengthFits s.memWords s.mlen = true → lengthFits s.memWords n = true)

theorem Grows.refl (s : State) : Grows s s.mlen := ⟨le_rfl, id⟩

theorem Grows.trans {s : State} {n k : Nat} (h : Grows s n) (h' : Grows (s.withMlen n) k) : Grows s k :=
  ⟨h.1.trans h'.1, fun hf => h'.2 (h.2 hf)⟩

theorem withMlen_withMlen (s : State) (n k : Nat) : (s.withMlen n).withMlen k = s.withMlen k := rfl

theorem withMlen_self (s : State) : s.withMlen s.mlen = s := rfl

/-! ## Addresses -/

theorem addressFault_none {s : State} {a : Int} : addressFault s.memWords a = none ↔ Accessible s a := by
  unfold addressFault Accessible inCapacity
  cases s.memWords with
  | none => by_cases h : a < 0 <;> simp [h, not_lt.mp]
  | some c =>
    by_cases h : a < 0
    · simp [h]
    · simp only [h, if_false, Option.some.injEq, forall_eq']
      by_cases h' : a.toNat < c
      · simp [h']; omega
      · simp [h']; omega

theorem addressFault_some {s : State} {a : Int} {k : FaultKind} :
    addressFault s.memWords a = some k ↔ AddressFaults s a k := by
  unfold addressFault AddressFaults inCapacity
  cases s.memWords with
  | none => by_cases h : a < 0 <;> simp [h, eq_comm]
  | some c =>
    by_cases h : a < 0
    · simp [h, eq_comm, not_le.mpr h]
    · have h0 : 0 ≤ a := not_lt.mp h
      by_cases h' : a.toNat < c
      · have : ¬ (c : Int) ≤ a := by omega
        simp [h, h', this]
      · have : (c : Int) ≤ a := by omega
        simp [h, h', h0, this, eq_comm]

/-- An access faults or not, and not both. -/
theorem accessible_or_faults (s : State) (a : Int) : Accessible s a ∨ ∃ k, AddressFaults s a k := by
  cases h : addressFault s.memWords a with
  | none => exact .inl (addressFault_none.mp h)
  | some k => exact .inr ⟨k, addressFault_some.mp h⟩

theorem addressFaults_ne {s : State} {a : Int} {k : FaultKind} (h : AddressFaults s a k) : k ≠ .noFault := by
  rcases h with ⟨_, rfl⟩ | ⟨_, _, rfl⟩ <;> simp

theorem lengthFits_succ {s : State} {a : Int} (h : Accessible s a) : lengthFits s.memWords (a.toNat + 1) = true := by
  obtain ⟨h0, h1⟩ := h
  unfold lengthFits
  cases hm : s.memWords with
  | none => rfl
  | some c => have := h1 c hm; simp; omega

/-! ## Memory primitives -/

/-- An access extends the memory to cover its address (20_memory R65). -/
theorem extend_grows {s : State} {a : Int} (h : Accessible s a) :
    ∃ n, extend a.toNat s = s.withMlen n ∧ Grows s n ∧ a.toNat < n := by
  refine ⟨_, rfl, ⟨?_, fun hf => ?_⟩, ?_⟩ <;> split
  · omega
  · exact le_rfl
  · exact lengthFits_succ h
  · exact hf
  · omega
  · omega

theorem memRead_ok {s : State} {a : Int} (h : Accessible s a) :
    memRead a s = .ok (readCell s.mem a.toNat) (extend a.toNat s) := by
  unfold memRead; rw [addressFault_none.mpr h]

theorem memRead_raise {s : State} {a : Int} {k : FaultKind} (h : AddressFaults s a k) : memRead a s = .raise k s := by
  unfold memRead; rw [addressFault_some.mpr h]

theorem memWrite_ok {s : State} {a : Int} (v : Word) (h : Accessible s a) :
    memWrite a v s = .ok () { extend a.toNat s with mem := writeCell s.mem a.toNat v } := by
  unfold memWrite; rw [addressFault_none.mpr h]

theorem memWrite_raise {s : State} {a : Int} {k : FaultKind} (v : Word) (h : AddressFaults s a k) :
    memWrite a v s = .raise k s := by
  unfold memWrite; rw [addressFault_some.mpr h]

/-! ## Checked arithmetic -/

theorem narrow_ok {v : Int} (s : State) (h : fits64 v = true) : narrow v s = .ok (BitVec.ofInt 64 v) s := by
  simp [narrow, narrow?, h]

theorem narrow_raise {v : Int} (s : State) (h : fits64 v = false) : narrow v s = .raise .arithmeticOverflow s := by
  simp [narrow, narrow?, h]

/-- Narrowing gives the Word that the integer is, or `ArithmeticOverflow`; the state is untouched. -/
theorem narrow_cases (v : Int) (s : State) :
    (∃ w : Word, w.toInt = v ∧ fits64 v = true ∧ narrow v s = .ok w s) ∨
      (fits64 v = false ∧ narrow v s = .raise .arithmeticOverflow s) := by
  cases h : fits64 v with
  | true => exact .inl ⟨_, toInt_ofInt_of_fits h, rfl, narrow_ok s h⟩
  | false => exact .inr ⟨rfl, narrow_raise s h⟩

theorem nextIp_ok {len : Nat} {s : State} (h : fits64 (s.ip.toInt + len) = true) :
    nextIp len s = .ok (BitVec.ofInt 64 (s.ip.toInt + len)) s := narrow_ok s h

theorem nextIp_raise {len : Nat} {s : State} (h : fits64 (s.ip.toInt + len) = false) :
    nextIp len s = .raise .arithmeticOverflow s := narrow_raise s h

/-! ## Operands -/

theorem readsAs_withMlen {p : Param} {s : State} {n : Nat} {v : Word} : ReadsAs p (s.withMlen n) v ↔ ReadsAs p s v :=
  Iff.rfl

theorem operandFaults_withMlen {p : Param} {s : State} {n : Nat} {k : FaultKind} :
    OperandFaults p (s.withMlen n) k ↔ OperandFaults p s k := Iff.rfl

theorem accessible_withMlen {s : State} {n : Nat} {a : Int} : Accessible (s.withMlen n) a ↔ Accessible s a := Iff.rfl

theorem effectiveAddress_withMlen (p : Param) (s : State) (n : Nat) :
    effectiveAddress p (s.withMlen n) = effectiveAddress p s := rfl

/-- A readable operand gives its value and changes nothing but `MLEN` (30_encoding R101, R102, R103). -/
theorem readOperand_ok {p : Param} {s : State} {v : Word} (h : ReadsAs p s v) :
    ∃ n, Grows s n ∧ readOperand p s = .ok v (s.withMlen n) := by
  have access : ∀ a, Accessible s a → ∃ n, Grows s n ∧ memRead a s = .ok (readCell s.mem a.toNat) (s.withMlen n) := by
    intro a ha
    obtain ⟨n, he, hg, _⟩ := extend_grows ha
    exact ⟨n, hg, by rw [memRead_ok ha, he]⟩
  obtain ⟨mode, word⟩ := p
  cases mode with
  | position => obtain ⟨ha, rfl⟩ := h; exact access _ ha
  | immediate => obtain rfl : v = word := h; exact ⟨_, Grows.refl s, rfl⟩
  | relative => obtain ⟨ha, rfl⟩ := h; exact access _ ha

theorem readOperand_raise {p : Param} {s : State} {k : FaultKind} (h : OperandFaults p s k) :
    readOperand p s = .raise k s := by
  obtain ⟨a, ha, hk⟩ := h
  unfold readOperand
  rw [ha]
  exact memRead_raise hk

/-- A read operand has a value or faults. -/
theorem reads_or_faults (p : Param) (s : State) : (∃ v, ReadsAs p s v) ∨ ∃ k, OperandFaults p s k := by
  obtain ⟨mode, word⟩ := p
  cases mode with
  | position =>
    rcases accessible_or_faults s word.toInt with h | ⟨k, h⟩
    · exact .inl ⟨_, h, rfl⟩
    · exact .inr ⟨k, _, rfl, h⟩
  | immediate => exact .inl ⟨word, rfl⟩
  | relative =>
    rcases accessible_or_faults s (word.toInt + s.rb.toInt) with h | ⟨k, h⟩
    · exact .inl ⟨_, h, rfl⟩
    · exact .inr ⟨k, _, rfl, h⟩

theorem operandFaults_ne {p : Param} {s : State} {k : FaultKind} (h : OperandFaults p s k) : k ≠ .noFault := by
  obtain ⟨_, _, h⟩ := h; exact addressFaults_ne h

theorem writeAddress_ok {p : Param} {s : State} {d : Int} (he : effectiveAddress p s = some d) (ha : Accessible s d) :
    writeAddress p s = .ok d s := by
  unfold writeAddress; rw [he]; simp only; rw [addressFault_none.mpr ha]

theorem writeAddress_raise {p : Param} {s : State} {k : FaultKind} (h : OperandFaults p s k) :
    writeAddress p s = .raise k s := by
  obtain ⟨a, he, hk⟩ := h
  unfold writeAddress; rw [he]; simp only; rw [addressFault_some.mpr hk]

theorem isTarget_eq_false {p : Param} : p.isTarget = false ↔ p.mode = .immediate := by
  unfold Param.isTarget; cases p.mode <;> simp

theorem isTarget_eq_true {p : Param} : p.isTarget = true ↔ p.mode ≠ .immediate := by
  unfold Param.isTarget; cases p.mode <;> simp

theorem checkTarget_ok {p : Param} (s : State) (h : p.mode ≠ .immediate) : checkTarget p s = .ok () s := by
  simp [checkTarget, isTarget_eq_true.mpr h]

theorem checkTarget_raise {p : Param} (s : State) (h : p.mode = .immediate) :
    checkTarget p s = .raise .invalidWriteTarget s := by
  simp [checkTarget, isTarget_eq_false.mpr h]

/-- A write target that is not Immediate has an address, which exists or faults. -/
theorem target_or_faults {p : Param} (s : State) (h : p.mode ≠ .immediate) :
    (∃ d, effectiveAddress p s = some d ∧ Accessible s d) ∨ ∃ k, OperandFaults p s k := by
  have : ∃ d, effectiveAddress p s = some d := by
    unfold effectiveAddress; cases hm : p.mode <;> simp_all
  obtain ⟨d, hd⟩ := this
  rcases accessible_or_faults s d with ha | ⟨k, hk⟩
  · exact .inl ⟨d, hd, ha⟩
  · exact .inr ⟨k, d, hd, hk⟩

theorem effectiveAddress_ne_immediate {p : Param} {s : State} {d : Int} (h : effectiveAddress p s = some d) :
    p.mode ≠ .immediate := by
  intro hm; simp [effectiveAddress, hm] at h

@[simp] theorem Res.bind_ok {α β : Type} (a : α) (s : State) (f : α → State → Res β) : (Res.ok a s).bind f = f a s := rfl

@[simp] theorem Res.bind_raise {α β : Type} (k : FaultKind) (s : State) (f : α → State → Res β) :
    (Res.raise k s : Res α).bind f = .raise k s := rfl

/-! ## The shared instruction shapes -/

/-- Format F3 with its operands readable and its target at an address: the checks of phase 8, then the one write. -/
theorem computeAndStore_of_operands {f : Word → Word → Int} {a b dst : Param} {s : State} {x y : Word} {d : Int}
    (hx : ReadsAs a s x) (hy : ReadsAs b s y) (hd : effectiveAddress dst s = some d) (ha : Accessible s d) :
    ∃ n, Grows s n ∧
      ((fits64 (f x y) = false ∨ fits64 (s.ip.toInt + 4) = false) →
        computeAndStore f a b dst s = .raise .arithmeticOverflow (s.withMlen n)) ∧
      (fits64 (f x y) = true → fits64 (s.ip.toInt + 4) = true →
        ∃ k, Grows s k ∧ d.toNat < k ∧
          computeAndStore f a b dst s =
            .ok () { s with
                     mlen := k
                     mem := writeCell s.mem d.toNat (BitVec.ofInt 64 (f x y))
                     ip := BitVec.ofInt 64 (s.ip.toInt + 4) }) := by
  obtain ⟨n1, g1, h1⟩ := readOperand_ok hx
  obtain ⟨n2, g2, h2⟩ := readOperand_ok (readsAs_withMlen (n := n1).mpr hy)
  rw [withMlen_withMlen] at h2
  have hw : writeAddress dst (s.withMlen n2) = .ok d (s.withMlen n2) := writeAddress_ok hd ha
  have hc : checkTarget dst s = .ok () s := checkTarget_ok s (effectiveAddress_ne_immediate hd)
  refine ⟨n2, g1.trans g2, ?_, ?_⟩
  · intro hf
    unfold computeAndStore
    rw [hc, Res.bind_ok, h1, Res.bind_ok, h2, Res.bind_ok, hw, Res.bind_ok]
    cases hr : fits64 (f x y) with
    | false => rw [narrow_raise _ hr]; rfl
    | true =>
      rw [narrow_ok _ hr, Res.bind_ok, nextIp_raise]
      · rfl
      · exact (hf.resolve_left (by simp [hr]))
  · intro hr hi
    obtain ⟨k, he, gk, hk⟩ := extend_grows (s := s.withMlen n2) (a := d) ha
    refine ⟨k, (g1.trans g2).trans gk, hk, ?_⟩
    unfold computeAndStore
    rw [hc, Res.bind_ok, h1, Res.bind_ok, h2, Res.bind_ok, hw, Res.bind_ok, narrow_ok _ hr, Res.bind_ok,
      nextIp_ok (s := s.withMlen n2) hi, Res.bind_ok, memWrite_ok _ (s := s.withMlen n2) ha, Res.bind_ok, he]
    rfl

/-- Format F3 raises the first fault of its phases 4, 6 and 7 (60_exceptions R220). -/
theorem computeAndStore_raise {f : Word → Word → Int} {a b dst : Param} {s : State} :
    (dst.mode = .immediate → computeAndStore f a b dst s = .raise .invalidWriteTarget s) ∧
    (dst.mode ≠ .immediate →
      (∀ k, OperandFaults a s k → computeAndStore f a b dst s = .raise k s) ∧
      ∀ x, ReadsAs a s x →
        (∀ k, OperandFaults b s k → ∃ n, Grows s n ∧ computeAndStore f a b dst s = .raise k (s.withMlen n)) ∧
        ∀ y, ReadsAs b s y →
          ∀ k, OperandFaults dst s k → ∃ n, Grows s n ∧ computeAndStore f a b dst s = .raise k (s.withMlen n)) := by
  refine ⟨fun h => by simp [computeAndStore, checkTarget_raise s h], fun h => ⟨fun k hk => ?_, fun x hx => ?_⟩⟩
  · simp [computeAndStore, checkTarget_ok s h, readOperand_raise hk]
  · obtain ⟨n1, g1, h1⟩ := readOperand_ok hx
    refine ⟨fun k hk => ⟨n1, g1, ?_⟩, fun y hy k hk => ?_⟩
    · have h2 := readOperand_raise (operandFaults_withMlen (n := n1).mpr hk)
      simp [computeAndStore, checkTarget_ok s h, h1, h2]
    · obtain ⟨n2, g2, h2⟩ := readOperand_ok (readsAs_withMlen (n := n1).mpr hy)
      rw [withMlen_withMlen] at h2
      have h3 := writeAddress_raise (operandFaults_withMlen (n := n2).mpr hk)
      exact ⟨n2, g1.trans g2, by simp [computeAndStore, checkTarget_ok s h, h1, h2, h3]⟩

/-- Everything format F3 can do: raise a fault with nothing changed but `MLEN`, or store its exact result. -/
theorem computeAndStore_cases (f : Word → Word → Int) (a b dst : Param) (s : State) :
    (∃ k n, k ≠ .noFault ∧ Grows s n ∧ computeAndStore f a b dst s = .raise k (s.withMlen n)) ∨
    (∃ (x y : Word) (d : Int) (n : Nat), ReadsAs a s x ∧ ReadsAs b s y ∧ effectiveAddress dst s = some d ∧
      Accessible s d ∧ fits64 (f x y) = true ∧ fits64 (s.ip.toInt + 4) = true ∧ Grows s n ∧ d.toNat < n ∧
      computeAndStore f a b dst s =
        .ok () { s with
                 mlen := n
                 mem := writeCell s.mem d.toNat (BitVec.ofInt 64 (f x y))
                 ip := BitVec.ofInt 64 (s.ip.toInt + 4) }) := by
  obtain ⟨r1, r2⟩ := computeAndStore_raise (f := f) (a := a) (b := b) (dst := dst) (s := s)
  by_cases hm : dst.mode = .immediate
  · exact .inl ⟨_, _, by simp, Grows.refl s, r1 hm⟩
  obtain ⟨ra, rx⟩ := r2 hm
  rcases reads_or_faults a s with ⟨x, hx⟩ | ⟨k, hk⟩
  · obtain ⟨rb, ry⟩ := rx x hx
    rcases reads_or_faults b s with ⟨y, hy⟩ | ⟨k, hk⟩
    · rcases target_or_faults s hm with ⟨d, hd, ha⟩ | ⟨k, hk⟩
      · obtain ⟨n, g, hbad, hgood⟩ := computeAndStore_of_operands (f := f) hx hy hd ha
        cases hr : fits64 (f x y) with
        | false => exact .inl ⟨_, n, by simp, g, hbad (.inl hr)⟩
        | true =>
          cases hi : fits64 (s.ip.toInt + 4) with
          | false => exact .inl ⟨_, n, by simp, g, hbad (.inr hi)⟩
          | true =>
            obtain ⟨k, gk, hk, he⟩ := hgood hr hi
            exact .inr ⟨x, y, d, k, hx, hy, hd, ha, hr, rfl, gk, hk, he⟩
      · obtain ⟨n, g, h⟩ := ry y hy k hk
        exact .inl ⟨k, n, operandFaults_ne hk, g, h⟩
    · obtain ⟨n, g, h⟩ := rb k hk
      exact .inl ⟨k, n, operandFaults_ne hk, g, h⟩
  · exact .inl ⟨k, _, operandFaults_ne hk, Grows.refl s, ra k hk⟩

/-- Format F2 with both operands readable: a true condition loads `IP` exactly, else `IP + 3` is checked. -/
theorem jumpWhen_of_operands {cond : Word → Bool} {a b : Param} {s : State} {x y : Word}
    (hx : ReadsAs a s x) (hy : ReadsAs b s y) :
    ∃ n, Grows s n ∧
      (cond x = true → jumpWhen cond a b s = .ok () { s with mlen := n, ip := y }) ∧
      (cond x = false → fits64 (s.ip.toInt + 3) = true →
        jumpWhen cond a b s = .ok () { s with mlen := n, ip := BitVec.ofInt 64 (s.ip.toInt + 3) }) ∧
      (cond x = false → fits64 (s.ip.toInt + 3) = false →
        jumpWhen cond a b s = .raise .arithmeticOverflow (s.withMlen n)) := by
  obtain ⟨n1, g1, h1⟩ := readOperand_ok hx
  obtain ⟨n2, g2, h2⟩ := readOperand_ok (readsAs_withMlen (n := n1).mpr hy)
  rw [withMlen_withMlen] at h2
  refine ⟨n2, g1.trans g2, fun hc => ?_, fun hc hi => ?_, fun hc hi => ?_⟩
  · simp only [jumpWhen, h1, h2, hc, Res.bind_ok]; rfl
  · have := nextIp_ok (len := 3) (s := s.withMlen n2) hi
    simp only [jumpWhen, h1, h2, hc, this, Res.bind_ok]; rfl
  · have := nextIp_raise (len := 3) (s := s.withMlen n2) hi
    simp [jumpWhen, h1, h2, hc, this]

/-- Everything format F2 can do. -/
theorem jumpWhen_cases (cond : Word → Bool) (a b : Param) (s : State) :
    (∃ k n, k ≠ .noFault ∧ Grows s n ∧ jumpWhen cond a b s = .raise k (s.withMlen n)) ∨
    (∃ (x y next : Word) (n : Nat), ReadsAs a s x ∧ ReadsAs b s y ∧ Grows s n ∧
      (cond x = true ∧ next = y ∨ cond x = false ∧ next.toInt = s.ip.toInt + 3) ∧
      jumpWhen cond a b s = .ok () { s with mlen := n, ip := next }) := by
  rcases reads_or_faults a s with ⟨x, hx⟩ | ⟨k, hk⟩
  · rcases reads_or_faults b s with ⟨y, hy⟩ | ⟨k, hk⟩
    · obtain ⟨n, g, h1, h2, h3⟩ := jumpWhen_of_operands (cond := cond) hx hy
      cases hc : cond x with
      | true => exact .inr ⟨x, y, y, n, hx, hy, g, .inl ⟨hc, rfl⟩, h1 hc⟩
      | false =>
        cases hi : fits64 (s.ip.toInt + 3) with
        | true => exact .inr ⟨x, y, _, n, hx, hy, g, .inr ⟨hc, toInt_ofInt_of_fits hi⟩, h2 hc hi⟩
        | false => exact .inl ⟨_, n, by simp, g, h3 hc hi⟩
    · obtain ⟨n, g, h⟩ := readOperand_ok hx
      refine .inl ⟨k, n, operandFaults_ne hk, g, ?_⟩
      simp [jumpWhen, h, readOperand_raise (operandFaults_withMlen (n := n).mpr hk)]
  · exact .inl ⟨k, _, operandFaults_ne hk, Grows.refl s, by simp [jumpWhen, readOperand_raise hk]; rfl⟩

end Sys2Proof.Machine
end

