-- ==== Sys2Proof/Laws/Exec.lean ====
section
/-! SUPPORT. What each meaning, the fetch and the step can do: every one of them answers a next state. -/

namespace Sys2Proof.Machine

/-- An instruction faults: fault entry on the same state, whose reads may have raised `MLEN`. -/
def Faulted (s t : State) : Prop :=
  ∃ k n, k ≠ .noFault ∧ Grows s n ∧ t = enterFault k (s.withMlen n)

/-- An instruction of format F3 stores: one word written, `IP` advanced, `MLEN` covering the word. -/
def Stored (s t : State) : Prop :=
  ∃ (d : Int) (r next : Word) (n : Nat), Accessible s d ∧ Grows s n ∧ d.toNat < n ∧ next.toInt = s.ip.toInt + 4 ∧
    t = { s with mlen := n, mem := writeCell s.mem d.toNat r, ip := next }

/-- A jump completes: only `IP` changes. -/
def Jumped (s t : State) : Prop :=
  ∃ (next : Word) (n : Nat), Grows s n ∧ t = { s with mlen := n, ip := next }

/-- What an instruction other than by a fault can leave. -/
def Completed : Instr → State → State → Prop
  | .add _ _ _, s, t => Stored s t
  | .mul _ _ _, s, t => Stored s t
  | .lt _ _ _, s, t => Stored s t
  | .eq _ _ _, s, t => Stored s t
  | .inp _, s, t =>
    (s.inValid = false ∧ t = stop .needInput s) ∨
    ∃ (d : Int) (next : Word) (n : Nat), s.inValid = true ∧ Accessible s d ∧ Grows s n ∧ d.toNat < n ∧
      next.toInt = s.ip.toInt + 2 ∧
      t = { s with inValid := false, mlen := n, mem := writeCell s.mem d.toNat s.inData, ip := next }
  | .out a, s, t =>
    ∃ (x next : Word) (n : Nat), ReadsAs a s x ∧ Grows s n ∧ next.toInt = s.ip.toInt + 2 ∧
      t = stop (.produced x) { s with mlen := n, out := x, ip := next }
  | .jt _ _, s, t => Jumped s t
  | .jf _ _, s, t => Jumped s t
  | .arb a, s, t =>
    ∃ (x r next : Word) (n : Nat), ReadsAs a s x ∧ Grows s n ∧ r.toInt = s.rb.toInt + x.toInt ∧
      next.toInt = s.ip.toInt + 2 ∧ t = { s with mlen := n, rb := r, ip := next }
  | .halt, s, t =>
    ∃ next : Word, next.toInt = s.ip.toInt + 1 ∧ t = stop .halted { s with ip := next, halted := true }

theorem complete_computeAndStore (f : Word → Word → Int) (a b dst : Param) (s : State) :
    ∃ t, complete (computeAndStore f a b dst s) = .next t ∧ (Faulted s t ∨ Stored s t) := by
  rcases computeAndStore_cases f a b dst s with ⟨k, n, hk, g, h⟩ | ⟨x, y, d, n, _, _, _, ha, _, hi, g, hd, h⟩
  · exact ⟨_, by rw [h]; rfl, .inl ⟨k, n, hk, g, rfl⟩⟩
  · exact ⟨_, by rw [h]; rfl, .inr ⟨d, _, _, n, ha, g, hd, toInt_ofInt_of_fits hi, rfl⟩⟩

theorem complete_jumpWhen (cond : Word → Bool) (a b : Param) (s : State) :
    ∃ t, complete (jumpWhen cond a b s) = .next t ∧ (Faulted s t ∨ Jumped s t) := by
  rcases jumpWhen_cases cond a b s with ⟨k, n, hk, g, h⟩ | ⟨_, _, next, n, _, _, g, _, h⟩
  · exact ⟨_, by rw [h]; rfl, .inl ⟨k, n, hk, g, rfl⟩⟩
  · exact ⟨_, by rw [h]; rfl, .inr ⟨next, n, g, rfl⟩⟩

theorem execInp_cases (dst : Param) (s : State) :
    ∃ t, execInp dst s = .next t ∧ (Faulted s t ∨ Completed (.inp dst) s t) := by
  by_cases hm : dst.mode = .immediate
  · exact ⟨_, by simp only [execInp, checkTarget_raise s hm, Res.bind_raise]; rfl,
      .inl ⟨.invalidWriteTarget, _, by simp, Grows.refl s, rfl⟩⟩
  rcases target_or_faults s hm with ⟨d, hd, ha⟩ | ⟨k, hk⟩
  · have hw := writeAddress_ok hd ha
    cases hv : s.inValid with
    | false =>
      exact ⟨_, by simp [execInp, checkTarget_ok s hm, hw, hv, complete], .inr (.inl ⟨hv, rfl⟩)⟩
    | true =>
      cases hi : fits64 (s.ip.toInt + 2) with
      | false =>
        have h2 := nextIp_raise (len := 2) (s := s) hi
        exact ⟨_, by simp [execInp, checkTarget_ok s hm, hw, hv, h2, complete]; rfl,
          .inl ⟨.arithmeticOverflow, _, by simp, Grows.refl s, rfl⟩⟩
      | true =>
        have h2 := nextIp_ok (len := 2) (s := s) hi
        have h3 := memWrite_ok s.inData (s := { s with inValid := false }) (a := d) ha
        obtain ⟨n, he, g, hn⟩ := extend_grows (s := { s with inValid := false }) (a := d) ha
        refine ⟨_, by simp only [execInp, checkTarget_ok s hm, hw, hv, h2, h3, he, Res.bind_ok, if_true]; rfl,
          .inr (.inr ⟨d, _, n, hv, ha, g, hn, toInt_ofInt_of_fits hi, rfl⟩)⟩
  · exact ⟨_, by simp [execInp, checkTarget_ok s hm, writeAddress_raise hk, complete]; rfl,
      .inl ⟨k, _, operandFaults_ne hk, Grows.refl s, rfl⟩⟩

theorem execOut_cases (a : Param) (s : State) :
    ∃ t, execOut a s = .next t ∧ (Faulted s t ∨ Completed (.out a) s t) := by
  rcases reads_or_faults a s with ⟨x, hx⟩ | ⟨k, hk⟩
  · obtain ⟨n, g, h⟩ := readOperand_ok hx
    cases hi : fits64 (s.ip.toInt + 2) with
    | false =>
      have h2 := nextIp_raise (len := 2) (s := s.withMlen n) hi
      exact ⟨_, by simp only [execOut, h, h2, Res.bind_ok, Res.bind_raise]; rfl,
        .inl ⟨.arithmeticOverflow, n, by simp, g, rfl⟩⟩
    | true =>
      have h2 := nextIp_ok (len := 2) (s := s.withMlen n) hi
      exact ⟨_, by simp only [execOut, h, h2, Res.bind_ok]; rfl,
        .inr ⟨x, _, n, hx, g, toInt_ofInt_of_fits hi, rfl⟩⟩
  · exact ⟨_, by simp [execOut, readOperand_raise hk, complete]; rfl,
      .inl ⟨k, _, operandFaults_ne hk, Grows.refl s, rfl⟩⟩

theorem execArb_cases (a : Param) (s : State) :
    ∃ t, execArb a s = .next t ∧ (Faulted s t ∨ Completed (.arb a) s t) := by
  rcases reads_or_faults a s with ⟨x, hx⟩ | ⟨k, hk⟩
  · obtain ⟨n, g, h⟩ := readOperand_ok hx
    cases hr : fits64 (s.rb.toInt + x.toInt) with
    | false =>
      have h1 := narrow_raise (s.withMlen n) hr
      exact ⟨_, by simp only [execArb, h, withMlen_rb, h1, Res.bind_ok, Res.bind_raise]; rfl,
        .inl ⟨.arithmeticOverflow, n, by simp, g, rfl⟩⟩
    | true =>
      have h1 := narrow_ok (s.withMlen n) hr
      cases hi : fits64 (s.ip.toInt + 2) with
      | false =>
        have h2 := nextIp_raise (len := 2) (s := s.withMlen n) hi
        exact ⟨_, by simp only [execArb, h, withMlen_rb, h1, h2, Res.bind_ok, Res.bind_raise]; rfl,
          .inl ⟨.arithmeticOverflow, n, by simp, g, rfl⟩⟩
      | true =>
        have h2 := nextIp_ok (len := 2) (s := s.withMlen n) hi
        exact ⟨_, by simp only [execArb, h, withMlen_rb, h1, h2, Res.bind_ok]; rfl,
          .inr ⟨x, _, _, n, hx, g, toInt_ofInt_of_fits hr, toInt_ofInt_of_fits hi, rfl⟩⟩
  · exact ⟨_, by simp [execArb, readOperand_raise hk, complete]; rfl,
      .inl ⟨k, _, operandFaults_ne hk, Grows.refl s, rfl⟩⟩

theorem execHalt_cases (s : State) : ∃ t, execHalt s = .next t ∧ (Faulted s t ∨ Completed .halt s t) := by
  cases hi : fits64 (s.ip.toInt + 1) with
  | false =>
    have h2 := nextIp_raise (len := 1) (s := s) hi
    exact ⟨_, by simp only [execHalt, h2, Res.bind_raise]; rfl,
      .inl ⟨.arithmeticOverflow, _, by simp, Grows.refl s, rfl⟩⟩
  | true =>
    have h2 := nextIp_ok (len := 1) (s := s) hi
    exact ⟨_, by simp only [execHalt, h2, Res.bind_ok]; rfl, .inr ⟨_, toInt_ofInt_of_fits hi, rfl⟩⟩

/-- Everything an instruction can do: it answers a next state, a fault's or its own. -/
theorem exec_cases (i : Instr) (s : State) : ∃ t, exec i s = .next t ∧ (Faulted s t ∨ Completed i s t) := by
  cases i with
  | add a b dst => exact complete_computeAndStore _ a b dst s
  | mul a b dst => exact complete_computeAndStore _ a b dst s
  | inp dst => exact execInp_cases dst s
  | out a => exact execOut_cases a s
  | jt a b => exact complete_jumpWhen _ a b s
  | jf a b => exact complete_jumpWhen _ a b s
  | lt a b dst => exact complete_computeAndStore _ a b dst s
  | eq a b dst => exact complete_computeAndStore _ a b dst s
  | arb a => exact execArb_cases a s
  | halt => exact execHalt_cases s

/-- The same as an inversion: what is known of the state an instruction answers. -/
theorem exec_next {i : Instr} {s t : State} (h : exec i s = .next t) : Faulted s t ∨ Completed i s t := by
  obtain ⟨u, hu, hc⟩ := exec_cases i s
  rw [h] at hu; cases hu; exact hc

/-! ## Fetch -/

theorem extend_eq_max (a : Nat) (s : State) : extend a s = s.withMlen (max s.mlen (a + 1)) := by
  unfold extend State.withMlen
  congr 1
  split <;> omega

/-- Fetching `n` words from an accessible address on: they are the words memory holds, and `MLEN` covers them. -/
theorem fetchWords_ok (n : Nat) (a : Int) (s : State) (ha : 0 ≤ a) (h : ∀ j : Nat, j < n → Accessible s (a + j)) :
    fetchWords n a s = .ok (wordsAt s a n) (s.withMlen (if n = 0 then s.mlen else max s.mlen (a.toNat + n))) := by
  induction n generalizing a s with
  | zero => rfl
  | succ n ih =>
    have h0 : Accessible s a := by simpa using h 0 (by omega)
    have h1 := ih (a + 1) (extend a.toNat s) (by omega) (fun j hj => by
      have := h (j + 1) (by omega)
      have e : a + 1 + (j : Int) = a + ((j + 1 : Nat) : Int) := by omega
      rw [e]; exact this)
    have hw : wordsAt (extend a.toNat s) (a + 1) n = wordsAt s (a + 1) n := rfl
    rw [hw] at h1
    unfold fetchWords
    rw [memRead_ok h0, Res.bind_ok, h1, Res.bind_ok]
    congr 1
    · unfold wordsAt
      rw [List.range_succ_eq_map, List.map_cons, List.map_map]
      congr 1
      · simp
      · apply List.map_congr_left
        intro j _
        simp only [Function.comp]
        congr 2
        omega
    · rw [extend_eq_max, withMlen_withMlen]
      congr 1
      simp only [withMlen_mlen]
      split <;> simp <;> omega

/-- Fetching words that run out of the memory faults `OutOfStorage` (30_encoding R113). -/
theorem fetchWords_raise (n : Nat) (a : Int) (s : State) (ha : 0 ≤ a) (h : ∃ j : Nat, j < n ∧ ¬ Accessible s (a + j)) :
    ∃ k, Grows s k ∧ fetchWords n a s = .raise .outOfStorage (s.withMlen k) := by
  induction n generalizing a s with
  | zero => obtain ⟨j, hj, _⟩ := h; omega
  | succ n ih =>
    unfold fetchWords
    by_cases h0 : Accessible s a
    · obtain ⟨j, hj, hn⟩ := h
      have hj0 : j ≠ 0 := by rintro rfl; simp at hn; exact hn h0
      obtain ⟨m, he, g, _⟩ := extend_grows h0
      obtain ⟨k, gk, hk⟩ := ih (a + 1) (s.withMlen m) (by omega) ⟨j - 1, by omega, by
        have e : a + 1 + ((j - 1 : Nat) : Int) = a + j := by omega
        rw [e]; exact hn⟩
      exact ⟨k, g.trans gk, by rw [memRead_ok h0, Res.bind_ok, he, hk]; rfl⟩
    · have hk : AddressFaults s a .outOfStorage := by
        rcases accessible_or_faults s a with h | ⟨k, hk⟩
        · exact absurd h h0
        · rcases hk with ⟨h, _⟩ | hk
          · omega
          · exact .inr ⟨hk.1, hk.2.1, rfl⟩
      exact ⟨s.mlen, Grows.refl s, by rw [memRead_raise hk]; rfl⟩

/-- Everything a fetch can do: it changes nothing but `MLEN`. -/
theorem fetchInstr_cases (s : State) :
    (∃ k n, k ≠ .noFault ∧ Grows s n ∧ fetchInstr s = .raise k (s.withMlen n)) ∨
    (∃ i n, Grows s n ∧ fetchInstr s = .ok i (s.withMlen n)) := by
  unfold fetchInstr
  rcases accessible_or_faults s s.ip.toInt with ha | ⟨k, hk⟩
  · obtain ⟨m, he, g, _⟩ := extend_grows ha
    rw [memRead_ok ha, Res.bind_ok, he]
    cases hh : decodeHeader (readCell s.mem s.ip.toInt.toNat) with
    | error k =>
      refine .inl ⟨k, m, ?_, g, rfl⟩
      unfold decodeHeader at hh
      intro hk; subst hk
      split at hh
      · cases hh
      · simp only at hh
        split at hh
        · cases hh
        · split at hh
          · cases hh
          · split at hh <;> cases hh
    | ok h =>
      simp only
      by_cases hb : h.badTarget = true
      · rw [if_pos hb]; exact .inl ⟨_, m, by simp, g, rfl⟩
      · rw [if_neg hb]
        by_cases hall : ∀ j : Nat, j < h.op.params → Accessible (s.withMlen m) ((s.withMlen m).ip.toInt + 1 + j)
        · have := fetchWords_ok h.op.params ((s.withMlen m).ip.toInt + 1) (s.withMlen m)
            (by have := ha.1; simp only [withMlen_ip]; omega) hall
          rw [this, Res.bind_ok, withMlen_withMlen]
          refine .inr ⟨_, _, g.trans ⟨?_, fun hf => ?_⟩, rfl⟩
          · split <;> simp
          · split
            · exact hf
            · rename_i hp
              have hl := lengthFits_succ (hall (h.op.params - 1) (by omega))
              have e : ((s.withMlen m).ip.toInt + 1 + ((h.op.params - 1 : Nat) : Int)).toNat + 1 =
                  ((s.withMlen m).ip.toInt + 1).toNat + h.op.params := by
                have := ha.1; simp only [withMlen_ip]; omega
              rw [e] at hl
              rcases max_choice (s.withMlen m).mlen (((s.withMlen m).ip.toInt + 1).toNat + h.op.params) with e | e <;>
                rw [e] <;> assumption
        · push Not at hall
          obtain ⟨k, gk, hk⟩ := fetchWords_raise h.op.params ((s.withMlen m).ip.toInt + 1) (s.withMlen m)
            (by have := ha.1; simp only [withMlen_ip]; omega) hall
          exact .inl ⟨.outOfStorage, k, by simp, g.trans gk, by rw [hk]; rfl⟩
  · rw [memRead_raise hk]
    exact .inl ⟨k, _, addressFaults_ne hk, Grows.refl s, rfl⟩

/-- Everything an instruction step can do: a fault, or an instruction run on the same state with a longer memory. -/
theorem stepInstr_cases (s : State) :
    ∃ t, stepInstr s = .next t ∧
      (Faulted s t ∨ ∃ i n, fetchInstr s = .ok i (s.withMlen n) ∧ Grows s n ∧ Completed i (s.withMlen n) t) := by
  unfold stepInstr
  rcases fetchInstr_cases s with ⟨k, n, hk, g, h⟩ | ⟨i, n, g, h⟩
  · exact ⟨_, by rw [h], .inl ⟨k, n, hk, g, rfl⟩⟩
  · obtain ⟨t, ht, hc⟩ := exec_cases i (s.withMlen n)
    refine ⟨t, by rw [h]; exact ht, ?_⟩
    rcases hc with ⟨k, m, hk, gm, rfl⟩ | hc
    · exact .inl ⟨k, m, hk, g.trans gm, rfl⟩
    · exact .inr ⟨i, n, h, g, hc⟩

theorem stepInstr_next {s t : State} (h : stepInstr s = .next t) :
    Faulted s t ∨ ∃ i n, fetchInstr s = .ok i (s.withMlen n) ∧ Grows s n ∧ Completed i (s.withMlen n) t := by
  obtain ⟨u, hu, hc⟩ := stepInstr_cases s
  rw [h] at hu; cases hu; exact hc

/-- Everything a step can do: the host acts, or an instruction runs, or the core idles. -/
theorem step_cases (s : State) :
    ∃ t, step s = .next t ∧
      ((∃ op, servedOp s = some op ∧ t = hostIssue op (takeMove s)) ∨
        (servedOp s = none ∧ s.busy = true ∧ stepInstr (takeMove s) = .next t) ∨
        (servedOp s = none ∧ s.busy = false ∧ t = takeMove s)) := by
  unfold step stepSystem
  cases hs : servedOp s with
  | some op => exact ⟨_, rfl, .inl ⟨op, rfl, rfl⟩⟩
  | none =>
    unfold stepCore
    rw [takeMove_busy]
    cases hb : s.busy with
    | true =>
      obtain ⟨t, ht, _⟩ := stepInstr_cases (takeMove s)
      exact ⟨t, by simpa using ht, .inr (.inl ⟨rfl, rfl, ht⟩)⟩
    | false => exact ⟨_, rfl, .inr (.inr ⟨rfl, rfl, rfl⟩)⟩

theorem step_next {s t : State} (h : step s = .next t) :
    (∃ op, servedOp s = some op ∧ t = hostIssue op (takeMove s)) ∨
      (servedOp s = none ∧ s.busy = true ∧ stepInstr (takeMove s) = .next t) ∨
      (servedOp s = none ∧ s.busy = false ∧ t = takeMove s) := by
  obtain ⟨u, hu, hc⟩ := step_cases s
  rw [h] at hu; cases hu; exact hc

/-- Everything a host operation can do: load, start an invocation, or only give something back. -/
theorem hostIssue_cases (op : HostOp) (s : State) :
    (∃ ws, (op = .reset ∧ ws = [] ∨ s.busy = false ∧ ∃ p, op = .load p ∧ ws = p.map (BitVec.ofInt 64) ∧
        loadable s.memWords p = true) ∧ hostIssue op s = loaded ws s) ∨
    (∃ v, op = .invoke v ∧ s.busy = false ∧ s.halted = false ∧ s.faulted = false ∧
        hostIssue op s = { s with inData := v, inValid := true, busy := true }) ∨
    (∃ r, hostIssue op s = reply r s) := by
  cases op with
  | reset => exact .inl ⟨[], .inl ⟨rfl, rfl⟩, rfl⟩
  | load p =>
    cases hb : s.busy with
    | true => exact .inr (.inr ⟨.hostError, by simp [hostIssue, hb, refuse]⟩)
    | false =>
      cases hl : loadable s.memWords p with
      | true => exact .inl ⟨_, .inr ⟨rfl, p, rfl, rfl, hl⟩, by simp [hostIssue, hostLoad, hb, hl]⟩
      | false => exact .inr (.inr ⟨.hostError, by simp [hostIssue, hostLoad, hb, hl, refuse]⟩)
  | invoke v =>
    cases hb : s.busy with
    | true => exact .inr (.inr ⟨.hostError, by simp [hostIssue, hb, refuse]⟩)
    | false =>
      cases hh : s.halted with
      | true => exact .inr (.inr ⟨.outcome .halted, by simp [hostIssue, hostInvoke, hb, hh]⟩)
      | false =>
        cases hf : s.faulted with
        | true => exact .inr (.inr ⟨.outcome (.fault s.faultKind), by simp [hostIssue, hostInvoke, hb, hh, hf]⟩)
        | false => exact .inr (.inl ⟨v, rfl, rfl, rfl, rfl, by simp [hostIssue, hostInvoke, hb, hh, hf]⟩)
  | inspect r =>
    cases hb : s.busy with
    | true => exact .inr (.inr ⟨.hostError, by simp [hostIssue, hb, refuse]⟩)
    | false =>
      cases hr : inspectRegister r s with
      | some w => exact .inr (.inr ⟨.value w, by simp [hostIssue, hostInspect, hb, hr]⟩)
      | none => exact .inr (.inr ⟨.hostError, by simp [hostIssue, hostInspect, hb, hr, refuse]⟩)
  | inspectMem a =>
    cases hb : s.busy with
    | true => exact .inr (.inr ⟨.hostError, by simp [hostIssue, hb, refuse]⟩)
    | false =>
      cases hr : addressFault s.memWords a with
      | some _ => exact .inr (.inr ⟨.hostError, by simp [hostIssue, hostInspectMem, hb, hr, refuse]⟩)
      | none =>
        exact .inr (.inr ⟨.value (readCell s.mem a.toNat), by simp [hostIssue, hostInspectMem, hb, hr]⟩)

end Sys2Proof.Machine
end

