-- ==== Sys2Proof/Laws/Effect.lean ====
section
/-! SUPPORT. What an instruction does depends on `IP`, `RB`, memory, the capacity and the valid latch alone: states that
agree on these have the same effect. -/

namespace Sys2Proof.Machine

/-- The states agree on everything an instruction reads. -/
structure Agree (s t : State) : Prop where
  ip : s.ip = t.ip
  rb : s.rb = t.rb
  mem : s.mem = t.mem
  memWords : s.memWords = t.memWords
  inValid : s.inValid = t.inValid
  inData : s.inValid = true → s.inData = t.inData

theorem Agree.refl (s : State) : Agree s s := ⟨rfl, rfl, rfl, rfl, rfl, fun _ => rfl⟩

theorem Agree.symm {s t : State} (h : Agree s t) : Agree t s :=
  ⟨h.ip.symm, h.rb.symm, h.mem.symm, h.memWords.symm, h.inValid.symm, fun hv => (h.inData (h.inValid ▸ hv)).symm⟩

theorem Agree.withMlen {s t : State} (h : Agree s t) (n k : Nat) : Agree (s.withMlen n) (t.withMlen k) :=
  ⟨h.ip, h.rb, h.mem, h.memWords, h.inValid, h.inData⟩

theorem Agree.accessible {s t : State} (h : Agree s t) {a : Int} : Accessible s a ↔ Accessible t a := by
  unfold Accessible; rw [h.memWords]

theorem Agree.addressFaults {s t : State} (h : Agree s t) {a : Int} {k : FaultKind} :
    AddressFaults s a k ↔ AddressFaults t a k := by
  unfold AddressFaults; rw [h.memWords]

theorem Agree.effectiveAddress {s t : State} (h : Agree s t) (p : Param) :
    effectiveAddress p s = effectiveAddress p t := by
  unfold Machine.effectiveAddress; rw [h.rb]

theorem Agree.operandFaults {s t : State} (h : Agree s t) {p : Param} {k : FaultKind} :
    OperandFaults p s k ↔ OperandFaults p t k := by
  unfold OperandFaults; simp only [h.effectiveAddress, h.addressFaults]

theorem Agree.readsAs {s t : State} (h : Agree s t) {p : Param} {v : Word} : ReadsAs p s v ↔ ReadsAs p t v := by
  unfold ReadsAs; simp only [h.accessible, h.mem, h.rb]

/-- The effects an instruction can have, each with the values it writes. -/
inductive Effect where
  | fault (k : FaultKind)
  | store (d : Nat) (r next : Word)
  | take (d : Nat) (next : Word)
  | needInput
  | produce (x next : Word)
  | jump (next : Word)
  | adjust (r next : Word)
  | halt (next : Word)

/-- The state after an effect, with the memory length the accesses lead to. -/
def Effect.apply : Effect → Nat → State → State
  | .fault k, n, s => enterFault k (s.withMlen n)
  | .store d r next, n, s => { s with mlen := n, mem := writeCell s.mem d r, ip := next }
  | .take d next, n, s => { s with inValid := false, mlen := n, mem := writeCell s.mem d s.inData, ip := next }
  | .needInput, n, s => stop .needInput (s.withMlen n)
  | .produce x next, n, s => stop (.produced x) { s with mlen := n, out := x, ip := next }
  | .jump next, n, s => { s with mlen := n, ip := next }
  | .adjust r next, n, s => { s with mlen := n, rb := r, ip := next }
  | .halt next, n, s => stop .halted { s with mlen := n, ip := next, halted := true }

/-- What an effect's values satisfy: a fault has a kind, a stored word has an accessible address within the new
memory length, and only a valid latch is taken. -/
def Effect.Sound : Effect → Nat → State → Prop
  | .fault k, _, _ => k ≠ .noFault
  | .store d _ _, n, s => d < n ∧ Accessible s d
  | .take d _, n, s => d < n ∧ Accessible s d ∧ s.inValid = true
  | .needInput, _, s => s.inValid = false
  | _, _, _ => True

/-- The instruction `i` is `e`'s: which opcodes have which effects. -/
def Effect.Of : Effect → Instr → Prop
  | .fault _, _ => True
  | .store _ _ _, i => i.opcode ∈ [Opcode.add, .mul, .lt, .eq]
  | .take _ _, i => i.opcode = .inp
  | .needInput, i => i.opcode = .inp
  | .produce _ _, i => i.opcode = .out
  | .jump _, i => i.opcode = .jt ∨ i.opcode = .jf
  | .adjust _ _, i => i.opcode = .arb
  | .halt _, i => i.opcode = .halt

/-- `run` has the same effect on every state that agrees with `s`. -/
def SameEffect (s : State) (run : State → Host.Outcome State Fault Refusal) (e : Effect) : Prop :=
  ∀ t, Agree s t → ∃ n, Grows t n ∧ e.Sound n t ∧ run t = .next (e.apply n t)

theorem Agree.toNat_accessible {s : State} {d : Int} (h : Accessible s d) : Accessible s (d.toNat : Int) := by
  rw [Int.toNat_of_nonneg h.1]; exact h

theorem computeAndStore_effect (f : Word → Word → Int) (a b dst : Param) (s : State) :
    ∃ e, SameEffect s (fun t => complete (computeAndStore f a b dst t)) e ∧
      ((∃ k, e = .fault k) ∨ ∃ d r next, e = .store d r next) := by
  by_cases hm : dst.mode = .immediate
  · exact ⟨.fault .invalidWriteTarget, fun t _ => ⟨t.mlen, Grows.refl t, by simp [Effect.Sound], by
      simp only [computeAndStore_raise.1 hm]; rfl⟩, .inl ⟨_, rfl⟩⟩
  rcases reads_or_faults a s with ⟨x, hx⟩ | ⟨k, hk⟩
  · rcases reads_or_faults b s with ⟨y, hy⟩ | ⟨k, hk⟩
    · rcases target_or_faults s hm with ⟨d, hd, ha⟩ | ⟨k, hk⟩
      · by_cases hgood : fits64 (f x y) = true ∧ fits64 (s.ip.toInt + 4) = true
        · refine ⟨.store d.toNat (BitVec.ofInt 64 (f x y)) (BitVec.ofInt 64 (s.ip.toInt + 4)), fun t h => ?_,
            .inr ⟨_, _, _, rfl⟩⟩
          obtain ⟨_, _, _, hok⟩ := computeAndStore_of_operands (f := f) (h.readsAs.mp hx) (h.readsAs.mp hy)
            (h.effectiveAddress dst ▸ hd) (h.accessible.mp ha)
          obtain ⟨n, g, hn, he⟩ := hok hgood.1 (h.ip ▸ hgood.2)
          exact ⟨n, g, ⟨hn, Agree.toNat_accessible (h.accessible.mp ha)⟩, by simp only [he, h.ip]; rfl⟩
        · refine ⟨.fault .arithmeticOverflow, fun t h => ?_, .inl ⟨_, rfl⟩⟩
          obtain ⟨n, g, hbad, _⟩ := computeAndStore_of_operands (f := f) (h.readsAs.mp hx) (h.readsAs.mp hy)
            (h.effectiveAddress dst ▸ hd) (h.accessible.mp ha)
          refine ⟨n, g, by simp [Effect.Sound], ?_⟩
          simp only
          rw [hbad (by rw [← h.ip]; cases h1 : fits64 (f x y) <;> simp_all)]
          rfl
      · refine ⟨.fault k, fun t h => ?_, .inl ⟨_, rfl⟩⟩
        obtain ⟨n, g, he⟩ := (((computeAndStore_raise (f := f)).2 hm).2 x (h.readsAs.mp hx)).2 y (h.readsAs.mp hy) k
          (h.operandFaults.mp hk)
        exact ⟨n, g, operandFaults_ne hk, by simp only [he]; rfl⟩
    · refine ⟨.fault k, fun t h => ?_, .inl ⟨_, rfl⟩⟩
      obtain ⟨n, g, he⟩ := (((computeAndStore_raise (f := f)).2 hm).2 x (h.readsAs.mp hx)).1 k (h.operandFaults.mp hk)
      exact ⟨n, g, operandFaults_ne hk, by simp only [he]; rfl⟩
  · exact ⟨.fault k, fun t h => ⟨t.mlen, Grows.refl t, operandFaults_ne hk, by
      simp only [(computeAndStore_raise.2 hm).1 k (h.operandFaults.mp hk)]; rfl⟩, .inl ⟨_, rfl⟩⟩

theorem jumpWhen_effect (cond : Word → Bool) (a b : Param) (s : State) :
    ∃ e, SameEffect s (fun t => complete (jumpWhen cond a b t)) e ∧ ((∃ k, e = .fault k) ∨ ∃ next, e = .jump next) := by
  rcases reads_or_faults a s with ⟨x, hx⟩ | ⟨k, hk⟩
  · rcases reads_or_faults b s with ⟨y, hy⟩ | ⟨k, hk⟩
    · cases hc : cond x with
      | true =>
        refine ⟨.jump y, fun t h => ?_, .inr ⟨_, rfl⟩⟩
        obtain ⟨n, g, h1, _, _⟩ := jumpWhen_of_operands (cond := cond) (h.readsAs.mp hx) (h.readsAs.mp hy)
        exact ⟨n, g, trivial, by simp only [h1 hc]; rfl⟩
      | false =>
        cases hi : fits64 (s.ip.toInt + 3) with
        | true =>
          refine ⟨.jump (BitVec.ofInt 64 (s.ip.toInt + 3)), fun t h => ?_, .inr ⟨_, rfl⟩⟩
          obtain ⟨n, g, _, h2, _⟩ := jumpWhen_of_operands (cond := cond) (h.readsAs.mp hx) (h.readsAs.mp hy)
          exact ⟨n, g, trivial, by simp only [h2 hc (h.ip ▸ hi), h.ip]; rfl⟩
        | false =>
          refine ⟨.fault .arithmeticOverflow, fun t h => ?_, .inl ⟨_, rfl⟩⟩
          obtain ⟨n, g, _, _, h3⟩ := jumpWhen_of_operands (cond := cond) (h.readsAs.mp hx) (h.readsAs.mp hy)
          exact ⟨n, g, by simp [Effect.Sound], by simp only [h3 hc (h.ip ▸ hi)]; rfl⟩
    · refine ⟨.fault k, fun t h => ?_, .inl ⟨_, rfl⟩⟩
      obtain ⟨n, g, he⟩ := readOperand_ok (h.readsAs.mp hx)
      refine ⟨n, g, operandFaults_ne hk, ?_⟩
      simp [jumpWhen, he, readOperand_raise (operandFaults_withMlen (n := n).mpr (h.operandFaults.mp hk)), complete,
        Effect.apply]
  · exact ⟨.fault k, fun t h => ⟨t.mlen, Grows.refl t, operandFaults_ne hk, by
      simp [jumpWhen, readOperand_raise (h.operandFaults.mp hk), complete, Effect.apply, withMlen_self]⟩,
      .inl ⟨_, rfl⟩⟩

theorem execInp_effect (dst : Param) (s : State) :
    ∃ e, SameEffect s (execInp dst) e ∧ ((∃ k, e = .fault k) ∨ e = .needInput ∨ ∃ d next, e = .take d next) := by
  by_cases hm : dst.mode = .immediate
  · exact ⟨.fault .invalidWriteTarget, fun t _ => ⟨t.mlen, Grows.refl t, by simp [Effect.Sound], by
      simp [execInp, checkTarget_raise t hm, complete, Effect.apply, withMlen_self]⟩, .inl ⟨_, rfl⟩⟩
  rcases target_or_faults s hm with ⟨d, hd, ha⟩ | ⟨k, hk⟩
  · cases hv : s.inValid with
    | false =>
      refine ⟨.needInput, fun t h => ⟨t.mlen, Grows.refl t, h.inValid.symm.trans hv, ?_⟩, .inr (.inl rfl)⟩
      have hw := writeAddress_ok (h.effectiveAddress dst ▸ hd) (h.accessible.mp ha)
      have hv' : t.inValid = false := h.inValid ▸ hv
      simp [execInp, checkTarget_ok t hm, hw, hv', complete, Effect.apply, withMlen_self]
    | true =>
      cases hi : fits64 (s.ip.toInt + 2) with
      | false =>
        refine ⟨.fault .arithmeticOverflow, fun t h => ⟨t.mlen, Grows.refl t, by simp [Effect.Sound], ?_⟩,
          .inl ⟨_, rfl⟩⟩
        have hw := writeAddress_ok (h.effectiveAddress dst ▸ hd) (h.accessible.mp ha)
        have hv' : t.inValid = true := h.inValid ▸ hv
        have h2 := nextIp_raise (len := 2) (s := t) (h.ip ▸ hi)
        simp [execInp, checkTarget_ok t hm, hw, hv', h2, complete, Effect.apply, withMlen_self]
      | true =>
        refine ⟨.take d.toNat (BitVec.ofInt 64 (s.ip.toInt + 2)), fun t h => ?_, .inr (.inr ⟨_, _, rfl⟩)⟩
        have ha' : Accessible t d := h.accessible.mp ha
        have hw := writeAddress_ok (h.effectiveAddress dst ▸ hd) ha'
        have hv' : t.inValid = true := h.inValid ▸ hv
        have h2 := nextIp_ok (len := 2) (s := t) (h.ip ▸ hi)
        have h3 := memWrite_ok t.inData (s := { t with inValid := false }) (a := d) ha'
        obtain ⟨n, he, g, hn⟩ := extend_grows (s := { t with inValid := false }) (a := d) ha'
        refine ⟨n, g, ⟨hn, Agree.toNat_accessible ha', hv'⟩, ?_⟩
        simp only [execInp, checkTarget_ok t hm, hw, hv', h2, h3, he, Res.bind_ok, if_true, h.ip]
        rfl
  · refine ⟨.fault k, fun t h => ⟨t.mlen, Grows.refl t, operandFaults_ne hk, ?_⟩, .inl ⟨_, rfl⟩⟩
    simp [execInp, checkTarget_ok t hm, writeAddress_raise (h.operandFaults.mp hk), complete, Effect.apply,
      withMlen_self]

theorem execOut_effect (a : Param) (s : State) :
    ∃ e, SameEffect s (execOut a) e ∧ ((∃ k, e = .fault k) ∨ ∃ x next, e = .produce x next) := by
  rcases reads_or_faults a s with ⟨x, hx⟩ | ⟨k, hk⟩
  · cases hi : fits64 (s.ip.toInt + 2) with
    | false =>
      refine ⟨.fault .arithmeticOverflow, fun t h => ?_, .inl ⟨_, rfl⟩⟩
      obtain ⟨n, g, he⟩ := readOperand_ok (h.readsAs.mp hx)
      have h2 := nextIp_raise (len := 2) (s := t.withMlen n) (h.ip ▸ hi)
      exact ⟨n, g, by simp [Effect.Sound], by simp only [execOut, he, h2, Res.bind_ok, Res.bind_raise]; rfl⟩
    | true =>
      refine ⟨.produce x (BitVec.ofInt 64 (s.ip.toInt + 2)), fun t h => ?_, .inr ⟨_, _, rfl⟩⟩
      obtain ⟨n, g, he⟩ := readOperand_ok (h.readsAs.mp hx)
      have h2 := nextIp_ok (len := 2) (s := t.withMlen n) (h.ip ▸ hi)
      exact ⟨n, g, trivial, by simp only [execOut, he, h2, Res.bind_ok, h.ip]; rfl⟩
  · exact ⟨.fault k, fun t h => ⟨t.mlen, Grows.refl t, operandFaults_ne hk, by
      simp [execOut, readOperand_raise (h.operandFaults.mp hk), complete, Effect.apply, withMlen_self]⟩,
      .inl ⟨_, rfl⟩⟩

theorem execArb_effect (a : Param) (s : State) :
    ∃ e, SameEffect s (execArb a) e ∧ ((∃ k, e = .fault k) ∨ ∃ r next, e = .adjust r next) := by
  rcases reads_or_faults a s with ⟨x, hx⟩ | ⟨k, hk⟩
  · cases hr : fits64 (s.rb.toInt + x.toInt) with
    | false =>
      refine ⟨.fault .arithmeticOverflow, fun t h => ?_, .inl ⟨_, rfl⟩⟩
      obtain ⟨n, g, he⟩ := readOperand_ok (h.readsAs.mp hx)
      have h1 := narrow_raise (t.withMlen n) (h.rb ▸ hr)
      exact ⟨n, g, by simp [Effect.Sound], by
        simp only [execArb, he, withMlen_rb, h1, Res.bind_ok, Res.bind_raise]; rfl⟩
    | true =>
      cases hi : fits64 (s.ip.toInt + 2) with
      | false =>
        refine ⟨.fault .arithmeticOverflow, fun t h => ?_, .inl ⟨_, rfl⟩⟩
        obtain ⟨n, g, he⟩ := readOperand_ok (h.readsAs.mp hx)
        have h1 := narrow_ok (t.withMlen n) (h.rb ▸ hr)
        have h2 := nextIp_raise (len := 2) (s := t.withMlen n) (h.ip ▸ hi)
        exact ⟨n, g, by simp [Effect.Sound], by
          simp only [execArb, he, withMlen_rb, h1, h2, Res.bind_ok, Res.bind_raise]; rfl⟩
      | true =>
        refine ⟨.adjust (BitVec.ofInt 64 (s.rb.toInt + x.toInt)) (BitVec.ofInt 64 (s.ip.toInt + 2)), fun t h => ?_,
          .inr ⟨_, _, rfl⟩⟩
        obtain ⟨n, g, he⟩ := readOperand_ok (h.readsAs.mp hx)
        have h1 := narrow_ok (t.withMlen n) (h.rb ▸ hr)
        have h2 := nextIp_ok (len := 2) (s := t.withMlen n) (h.ip ▸ hi)
        exact ⟨n, g, trivial, by
          simp only [execArb, he, withMlen_rb, h1, h2, Res.bind_ok, h.ip, h.rb]; rfl⟩
  · exact ⟨.fault k, fun t h => ⟨t.mlen, Grows.refl t, operandFaults_ne hk, by
      simp [execArb, readOperand_raise (h.operandFaults.mp hk), complete, Effect.apply, withMlen_self]⟩,
      .inl ⟨_, rfl⟩⟩

theorem execHalt_effect (s : State) :
    ∃ e, SameEffect s execHalt e ∧ ((∃ k, e = .fault k) ∨ ∃ next, e = .halt next) := by
  cases hi : fits64 (s.ip.toInt + 1) with
  | false =>
    refine ⟨.fault .arithmeticOverflow, fun t h => ⟨t.mlen, Grows.refl t, by simp [Effect.Sound], ?_⟩, .inl ⟨_, rfl⟩⟩
    have h2 := nextIp_raise (len := 1) (s := t) (h.ip ▸ hi)
    simp only [execHalt, h2, Res.bind_raise]; rfl
  | true =>
    refine ⟨.halt (BitVec.ofInt 64 (s.ip.toInt + 1)), fun t h => ⟨t.mlen, Grows.refl t, trivial, ?_⟩, .inr ⟨_, rfl⟩⟩
    have h2 := nextIp_ok (len := 1) (s := t) (h.ip ▸ hi)
    simp only [execHalt, h2, Res.bind_ok, h.ip]; rfl

/-- Every instruction has one effect on all states that agree on what it reads. -/
theorem exec_effect (i : Instr) (s : State) : ∃ e, SameEffect s (exec i) e ∧ e.Of i := by
  cases i with
  | add a b dst =>
    obtain ⟨e, h, ⟨_, rfl⟩ | ⟨_, _, _, rfl⟩⟩ := computeAndStore_effect (fun x y => x.toInt + y.toInt) a b dst s
    · exact ⟨_, h, trivial⟩
    · exact ⟨_, h, by simp [Effect.Of, Instr.opcode]⟩
  | mul a b dst =>
    obtain ⟨e, h, ⟨_, rfl⟩ | ⟨_, _, _, rfl⟩⟩ := computeAndStore_effect (fun x y => x.toInt * y.toInt) a b dst s
    · exact ⟨_, h, trivial⟩
    · exact ⟨_, h, by simp [Effect.Of, Instr.opcode]⟩
  | inp dst =>
    obtain ⟨e, h, ⟨_, rfl⟩ | rfl | ⟨_, _, rfl⟩⟩ := execInp_effect dst s
    · exact ⟨_, h, trivial⟩
    · exact ⟨_, h, rfl⟩
    · exact ⟨_, h, rfl⟩
  | out a =>
    obtain ⟨e, h, ⟨_, rfl⟩ | ⟨_, _, rfl⟩⟩ := execOut_effect a s
    · exact ⟨_, h, trivial⟩
    · exact ⟨_, h, rfl⟩
  | jt a b =>
    obtain ⟨e, h, ⟨_, rfl⟩ | ⟨_, rfl⟩⟩ := jumpWhen_effect (fun x => x != 0) a b s
    · exact ⟨_, h, trivial⟩
    · exact ⟨_, h, .inl rfl⟩
  | jf a b =>
    obtain ⟨e, h, ⟨_, rfl⟩ | ⟨_, rfl⟩⟩ := jumpWhen_effect (fun x => x == 0) a b s
    · exact ⟨_, h, trivial⟩
    · exact ⟨_, h, .inr rfl⟩
  | lt a b dst =>
    obtain ⟨e, h, ⟨_, rfl⟩ | ⟨_, _, _, rfl⟩⟩ :=
      computeAndStore_effect (fun x y => truthValue (x.toInt < y.toInt)) a b dst s
    · exact ⟨_, h, trivial⟩
    · exact ⟨_, h, by simp [Effect.Of, Instr.opcode]⟩
  | eq a b dst =>
    obtain ⟨e, h, ⟨_, rfl⟩ | ⟨_, _, _, rfl⟩⟩ :=
      computeAndStore_effect (fun x y => truthValue (x.toInt = y.toInt)) a b dst s
    · exact ⟨_, h, trivial⟩
    · exact ⟨_, h, by simp [Effect.Of, Instr.opcode]⟩
  | arb a =>
    obtain ⟨e, h, ⟨_, rfl⟩ | ⟨_, _, rfl⟩⟩ := execArb_effect a s
    · exact ⟨_, h, trivial⟩
    · exact ⟨_, h, rfl⟩
  | halt =>
    obtain ⟨e, h, ⟨_, rfl⟩ | ⟨_, rfl⟩⟩ := execHalt_effect s
    · exact ⟨_, h, trivial⟩
    · exact ⟨_, h, rfl⟩

theorem Agree.memRead {s t : State} (h : Agree s t) (a : Int) :
    (∃ k, k ≠ .noFault ∧ Machine.memRead a s = .raise k s ∧ Machine.memRead a t = .raise k t) ∨
    (∃ w n m, Grows s n ∧ Grows t m ∧ Machine.memRead a s = .ok w (s.withMlen n) ∧
      Machine.memRead a t = .ok w (t.withMlen m)) := by
  rcases accessible_or_faults s a with ha | ⟨k, hk⟩
  · obtain ⟨n, he, g, _⟩ := extend_grows ha
    obtain ⟨m, he', g', _⟩ := extend_grows (h.accessible.mp ha)
    refine .inr ⟨readCell s.mem a.toNat, n, m, g, g', ?_, ?_⟩
    · rw [memRead_ok ha, he]
    · rw [memRead_ok (h.accessible.mp ha), he', h.mem]
  · exact .inl ⟨k, addressFaults_ne hk, memRead_raise hk, memRead_raise (h.addressFaults.mp hk)⟩

theorem Agree.fetchWords {s t : State} (h : Agree s t) (n : Nat) (a : Int) :
    (∃ k p q, k ≠ .noFault ∧ Grows s p ∧ Grows t q ∧ Machine.fetchWords n a s = .raise k (s.withMlen p) ∧
      Machine.fetchWords n a t = .raise k (t.withMlen q)) ∨
    (∃ ws p q, Grows s p ∧ Grows t q ∧ Machine.fetchWords n a s = .ok ws (s.withMlen p) ∧
      Machine.fetchWords n a t = .ok ws (t.withMlen q)) := by
  induction n generalizing s t a with
  | zero => exact .inr ⟨[], s.mlen, t.mlen, Grows.refl s, Grows.refl t, rfl, rfl⟩
  | succ n ih =>
    unfold Machine.fetchWords
    rcases h.memRead a with ⟨k, hk, hs, ht⟩ | ⟨w, p, q, gs, gt, hs, ht⟩
    · exact .inl ⟨k, s.mlen, t.mlen, hk, Grows.refl s, Grows.refl t, by rw [hs]; rfl, by rw [ht]; rfl⟩
    · rw [hs, ht, Res.bind_ok, Res.bind_ok]
      rcases ih (h.withMlen p q) (a + 1) with ⟨k, p', q', hk, gs', gt', hs', ht'⟩ | ⟨ws, p', q', gs', gt', hs', ht'⟩
      · exact .inl ⟨k, p', q', hk, gs.trans gs', gt.trans gt', by rw [hs']; rfl, by rw [ht']; rfl⟩
      · exact .inr ⟨w :: ws, p', q', gs.trans gs', gt.trans gt', by rw [hs']; rfl, by rw [ht']; rfl⟩

/-- States that agree fetch the same instruction, or raise the same fault. -/
theorem Agree.fetchInstr {s t : State} (h : Agree s t) :
    (∃ k p q, k ≠ .noFault ∧ Grows s p ∧ Grows t q ∧ Machine.fetchInstr s = .raise k (s.withMlen p) ∧
      Machine.fetchInstr t = .raise k (t.withMlen q)) ∨
    (∃ i p q, Grows s p ∧ Grows t q ∧ Machine.fetchInstr s = .ok i (s.withMlen p) ∧
      Machine.fetchInstr t = .ok i (t.withMlen q)) := by
  rcases fetchInstr_cases s with ⟨k, p, hk, gs, hs⟩ | ⟨i, p, gs, hs⟩
  all_goals
    have key := hs
    unfold Machine.fetchInstr at key
    rcases h.memRead s.ip.toInt with ⟨k', hk', hs', ht'⟩ | ⟨w, p', q', gs', gt', hs', ht'⟩
    · refine .inl ⟨k', s.mlen, t.mlen, hk', Grows.refl s, Grows.refl t, ?_, ?_⟩ <;> unfold Machine.fetchInstr
      · rw [hs']; rfl
      · rw [← h.ip, ht']; rfl
    · have es : Machine.fetchInstr s = Machine.fetchInstr s := rfl
      conv at es => lhs; unfold Machine.fetchInstr
      have et : Machine.fetchInstr t = Machine.fetchInstr t := rfl
      conv at et => lhs; unfold Machine.fetchInstr
      rw [hs', Res.bind_ok] at es
      rw [← h.ip, ht', Res.bind_ok] at et
      cases hd : decodeHeader w with
      | error k' =>
        rw [hd] at es et
        rw [← es] at hs
        refine .inl ⟨k', p', q', ?_, gs', gt', es.symm, et.symm⟩
        rintro rfl
        unfold decodeHeader at hd
        split at hd
        · cases hd
        · simp only at hd
          split at hd
          · cases hd
          · split at hd
            · cases hd
            · split at hd <;> cases hd
      | ok hdr =>
        rw [hd] at es et
        simp only at es et
        by_cases hb : hdr.badTarget = true
        · rw [if_pos hb] at es et
          exact .inl ⟨_, p', q', by simp, gs', gt', es.symm, et.symm⟩
        · rw [if_neg hb] at es et
          have ip' : (t.withMlen q').ip = (s.withMlen p').ip := h.ip.symm
          rw [ip'] at et
          rcases (h.withMlen p' q').fetchWords hdr.op.params ((s.withMlen p').ip.toInt + 1) with
            ⟨k', p2, q2, hk', g2, g2', h2, h2'⟩ | ⟨ws, p2, q2, g2, g2', h2, h2'⟩
          · rw [h2] at es; rw [h2'] at et
            exact .inl ⟨k', p2, q2, hk', gs'.trans g2, gt'.trans g2', es.symm, et.symm⟩
          · rw [h2] at es; rw [h2'] at et
            exact .inr ⟨_, p2, q2, gs'.trans g2, gt'.trans g2', es.symm, et.symm⟩

/-- `e` is an effect an instruction step of `s` can have: a fault, or that of the instruction it fetches. -/
def StepEffect (s : State) (e : Effect) : Prop :=
  (∃ k, e = .fault k) ∨ ∃ i s', fetchInstr s = .ok i s' ∧ e.Of i

theorem Grows.accessible_sound {e : Effect} {n m : Nat} {t : State} (h : e.Sound n (t.withMlen m)) : e.Sound n t := by
  cases e <;> exact h

theorem Effect.apply_withMlen (e : Effect) (n m : Nat) (t : State) : e.apply n (t.withMlen m) = e.apply n t := by
  cases e <;> rfl

/-- An instruction step has one effect on all states that agree on what an instruction reads. -/
theorem stepInstr_effect (s : State) : ∃ e, SameEffect s stepInstr e ∧ StepEffect s e := by
  rcases (Agree.refl s).fetchInstr with ⟨k, p, _, hk, _, _, hs, _⟩ | ⟨i, p, _, _, _, hs, _⟩
  · refine ⟨.fault k, fun t h => ?_, .inl ⟨k, rfl⟩⟩
    rcases h.fetchInstr with ⟨k', p', q', _, _, gt, hs', ht'⟩ | ⟨i', p', q', _, _, hs', _⟩
    · rw [hs] at hs'; cases hs'
      exact ⟨q', gt, hk, by unfold stepInstr; rw [ht']; rfl⟩
    · rw [hs] at hs'; cases hs'
  · obtain ⟨e, he, ho⟩ := exec_effect i (s.withMlen p)
    refine ⟨e, fun t h => ?_, .inr ⟨i, _, hs, ho⟩⟩
    rcases h.fetchInstr with ⟨k', p', q', _, _, _, hs', _⟩ | ⟨i', p', q', _, gt, hs', ht'⟩
    · rw [hs] at hs'; cases hs'
    · rw [hs] at hs'; cases hs'
      obtain ⟨n, g, hsound, hn⟩ := he (t.withMlen q') (h.withMlen p q')
      refine ⟨n, gt.trans g, Grows.accessible_sound hsound, ?_⟩
      unfold stepInstr
      rw [ht']
      simp only
      rw [hn, Effect.apply_withMlen]

end Sys2Proof.Machine
end

