-- ==== Sys2Proof/Laws/PerInstr.lean ====
section
/-! SUPPORT. The statement made of every instruction: its encoding has as many words as its length (30_encoding R97). -/

namespace Sys2Proof.Laws.EncodedLength

/-- The encoding of the instruction has exactly `L` words. -/
def Statement (i : Instr) : Prop := (encode i).length = i.length

theorem add (a b dst : Param) : Statement (.add a b dst) := rfl
theorem mul (a b dst : Param) : Statement (.mul a b dst) := rfl
theorem inp (dst : Param) : Statement (.inp dst) := rfl
theorem out (a : Param) : Statement (.out a) := rfl
theorem jt (a b : Param) : Statement (.jt a b) := rfl
theorem jf (a b : Param) : Statement (.jf a b) := rfl
theorem lt (a b dst : Param) : Statement (.lt a b dst) := rfl
theorem eq (a b dst : Param) : Statement (.eq a b dst) := rfl
theorem arb (a : Param) : Statement (.arb a) := rfl
theorem halt : Statement .halt := rfl

end Sys2Proof.Laws.EncodedLength
end

