-- ==== Sys2Proof/Laws/Signals.lean ====
section
/-! SUPPORT. What one clock edge does when one signal is raised, and what a word write at the signals keeps. -/

namespace Sys2Proof.Machine

@[simp] theorem clockEdges_nil (c : Clocked) : clockEdges [] c = c := rfl

@[simp] theorem clockEdges_cons (x : Inputs) (xs : List Inputs) (c : Clocked) :
    clockEdges (x :: xs) c = clockEdges xs (clockEdge x c) := rfl

theorem clockEdges_append (xs ys : List Inputs) (c : Clocked) :
    clockEdges (xs ++ ys) c = clockEdges ys (clockEdges xs c) := by
  induction xs generalizing c with
  | nil => rfl
  | cons x xs ih => simp [ih]

/-- A word write changes memory and `MLEN` only. -/
theorem signalWrite_frame (a : Nat) (v : Word) (s : State) :
    signalWrite a v s = { s with mem := (signalWrite a v s).mem, mlen := (signalWrite a v s).mlen } := by
  unfold signalWrite extend
  split <;> rfl

/-- A word write keeps memory's canonical form. -/
theorem signalWrite_wf {s : State} (a : Nat) (v : Word) (h : s.mem.wf = true) :
    (signalWrite a v s).mem.wf = true := by
  unfold signalWrite
  split
  · exact writeCell_wf a v h
  · exact h

/-- After a word write within the memory, its address reads as the word and every other address as before. -/
theorem readCell_signalWrite {s : State} (a b : Nat) (v : Word) (h : s.mem.wf = true)
    (ha : inCapacity s.memWords a = true) :
    readCell (signalWrite a v s).mem b = if b = a then v else readCell s.mem b := by
  simpa [signalWrite, ha] using readCell_writeCell h a b v

/-- An edge that raises only `ld_we` on an idle core is one word write. -/
theorem clockEdge_ldWe {x : Inputs} {c : Clocked} (hr : x.rst = false) (hs : x.start = false) (hc : x.ldClear = false)
    (hw : x.ldWe = true) (hb : c.core.busy = false) :
    clockEdge x c = ⟨signalWrite x.ldAddr.toNat x.ldData c.core, false, c.outcome⟩ := by
  simp [clockEdge, hr, hs, hc, hw, hb]

end Sys2Proof.Machine
end

