-- ==== Sys2Proof/Laws/Step.lean ====
section
/-! SUPPORT. Everything a step can do, in terms of effects; fetching an accessible instruction; and the fields that no
instruction reads. -/

namespace Sys2Proof.Machine

theorem agree_takeMove (s : State) : Agree s (takeMove s) := ⟨by simp, by simp, by simp, by simp, by simp, by simp⟩

theorem step_busy {s : State} (ho : servedOp s = none) (hb : s.busy = true) : step s = stepInstr (takeMove s) := by
  simp [step, stepSystem, ho, stepCore, hb]

/-- A step of a busy core that the host leaves alone has an effect of its instruction, or a fault. -/
theorem busy_step {s t : State} (ho : servedOp s = none) (hb : s.busy = true) (h : step s = .next t) :
    ∃ e n, Grows (takeMove s) n ∧ e.Sound n (takeMove s) ∧ StepEffect s e ∧ t = e.apply n (takeMove s) := by
  rw [step_busy ho hb] at h
  obtain ⟨e, he, hs⟩ := stepInstr_effect s
  obtain ⟨n, g, hsd, hn⟩ := he _ (agree_takeMove s)
  rw [h] at hn; cases hn
  exact ⟨e, n, g, hsd, hs, rfl⟩

/-- The five things a step can do: a Load or Reset, the start of an invocation, a reply to the host, nothing, or an
instruction's effect. -/
theorem step_effect_cases {s t : State} (h : step s = .next t) :
    (ServesLoadOrReset s ∧ ∃ ws, t = loaded ws (takeMove s) ∧ lengthFits s.memWords ws.length = true) ∨
    (∃ v, s.busy = false ∧ s.halted = false ∧ s.faulted = false ∧
      t = { takeMove s with inData := v, inValid := true, busy := true }) ∨
    (∃ r, t = reply r (takeMove s)) ∨
    (s.busy = false ∧ t = takeMove s) ∨
    (servedOp s = none ∧ s.busy = true ∧
      ∃ e n, Grows (takeMove s) n ∧ e.Sound n (takeMove s) ∧ StepEffect s e ∧ t = e.apply n (takeMove s)) := by
  rcases step_next h with ⟨op, ho, rfl⟩ | ⟨h1, h2, _⟩ | ⟨_, hb, rfl⟩
  · rcases hostIssue_cases op (takeMove s) with ⟨ws, hc, e⟩ | ⟨v, _, h1, h2, h3, e⟩ | ⟨r, e⟩
    · left
      rcases hc with ⟨rfl, rfl⟩ | ⟨_, p, rfl, rfl, hl⟩
      · exact ⟨.inl ho, _, e, by unfold lengthFits; cases s.memWords <;> simp⟩
      · refine ⟨.inr ⟨p, ho⟩, _, e, ?_⟩
        rw [takeMove_memWords] at hl
        unfold loadable at hl
        unfold lengthFits
        cases hm : s.memWords <;> simp_all
    · exact .inr (.inl ⟨v, by simpa using h1, by simpa using h2, by simpa using h3, e⟩)
    · exact .inr (.inr (.inl ⟨r, e⟩))
  · exact .inr (.inr (.inr (.inr ⟨h1, h2, busy_step h1 h2 h⟩)))
  · exact .inr (.inr (.inr (.inl ⟨hb, rfl⟩)))

/-! ## Fetch -/

theorem wordsAt_succ (s : State) (a : Int) (n : Nat) :
    wordsAt s a (n + 1) = readCell s.mem a.toNat :: wordsAt s (a + 1) n := by
  unfold wordsAt
  rw [List.range_succ_eq_map]
  simp only [List.map_cons, List.map_map, Nat.cast_zero, add_zero]
  congr 1
  refine List.map_congr_left fun j _ => ?_
  simp only [Function.comp, Nat.succ_eq_add_one]
  congr 2
  push_cast; omega

theorem wordsAt_take (s : State) (a : Int) {n k : Nat} (h : k ≤ n) : (wordsAt s a n).take k = wordsAt s a k := by
  unfold wordsAt
  rw [← List.map_take, List.take_range, min_eq_left h]

/-- Fetching an instruction whose words are accessible and whose target is legal: the instruction memory holds, with
`MLEN` covering its words (30_encoding R112). -/
theorem fetchInstr_ok {s : State} {hd : Header} (h0 : Accessible s s.ip.toInt)
    (hh : decodeHeader (readCell s.mem s.ip.toInt.toNat) = .ok hd) (hb : hd.badTarget = false)
    (ha : ∀ j : Nat, j < hd.op.length → Accessible s (s.ip.toInt + j)) :
    fetchInstr s = .ok (hd.toInstr (wordsAt s (s.ip.toInt + 1) 3))
      (s.withMlen (max s.mlen (s.ip.toInt.toNat + hd.op.length))) := by
  unfold fetchInstr
  rw [memRead_ok h0, Res.bind_ok, extend_eq_max]
  simp only [hh, hb]
  rw [if_neg (by simp)]
  have ip0 := h0.1
  have hp : hd.op.params ≤ 3 := by cases hd.op <;> decide
  have := fetchWords_ok hd.op.params (s.ip.toInt + 1) (s.withMlen (max s.mlen (s.ip.toInt.toNat + 1))) (by omega)
    (fun j hj => by
      have := ha (j + 1) (by unfold Opcode.length; omega)
      rw [accessible_withMlen]
      have e : s.ip.toInt + 1 + (j : Int) = s.ip.toInt + ((j + 1 : Nat) : Int) := by push_cast; omega
      rw [e]; exact this)
  simp only [withMlen_ip] at this ⊢
  rw [this, Res.bind_ok]
  congr 1
  · rw [← toInstr_take hd (wordsAt s _ 3), wordsAt_take _ _ hp]; rfl
  · rw [withMlen_withMlen]; congr 1
    simp only [withMlen_mlen]
    unfold Opcode.length
    split <;> omega

/-- The words at `IP` decode to the instruction of the header there. -/
theorem decode_wordsAt {s : State} {i : Instr} {rest : List Word} (h : decode (wordsAt s s.ip.toInt 4) = .ok (i, rest)) :
    ∃ hd, decodeHeader (readCell s.mem s.ip.toInt.toNat) = .ok hd ∧ i = hd.toInstr (wordsAt s (s.ip.toInt + 1) 3) := by
  rw [wordsAt_succ] at h
  obtain ⟨hd, hh, _, hi, _⟩ := decode_ok h
  exact ⟨hd, hh, hi⟩

/-- A step that runs an instruction is `exec` of it on the state after its fetch. -/
theorem runsInstr_step {s t : State} {i : Instr} (hr : RunsInstr s i) (h : step s = .next t) :
    ∃ n, Grows (takeMove s) n ∧ fetchInstr (takeMove s) = .ok i ((takeMove s).withMlen n) ∧
      exec i ((takeMove s).withMlen n) = .next t := by
  obtain ⟨ho, hb, s', hf⟩ := hr
  rw [step_busy ho hb] at h
  rcases (agree_takeMove s).fetchInstr with ⟨_, _, _, _, _, _, h1, _⟩ | ⟨i', p, q, _, gq, h1, h2⟩
  · rw [hf] at h1; cases h1
  · rw [hf] at h1; cases h1
    unfold stepInstr at h; rw [h2] at h
    exact ⟨q, gq, h2, h⟩

/-! ## The fields no instruction reads -/

/-- A phase's result with the state after it changed. -/
def Res.mapState {α : Type} (g : State → State) : Res α → Res α
  | .ok a s => .ok a (g s)
  | .raise k s => .raise k (g s)

theorem Res.bind_mapState {α β : Type} {g : State → State} {r : Res α} {f : α → State → Res β}
    (h : ∀ a s, f a (g s) = (f a s).mapState g) : (r.mapState g).bind f = (r.bind f).mapState g := by
  cases r with
  | ok a s => exact h a s
  | raise k s => rfl

/-- The state with the fields that no instruction reads put to other values. -/
def withUnread (b f : Bool) (k : FaultKind) (w : Word) (s : State) : State :=
  { s with halted := b, faulted := f, faultKind := k, out := w }

variable (b f : Bool) (k : FaultKind) (w : Word)

theorem memRead_withUnread (a : Int) (s : State) :
    memRead a (withUnread b f k w s) = (memRead a s).mapState (withUnread b f k w) := by
  unfold memRead; simp only [withUnread]; cases addressFault s.memWords a <;> rfl

theorem memWrite_withUnread (a : Int) (v : Word) (s : State) :
    memWrite a v (withUnread b f k w s) = (memWrite a v s).mapState (withUnread b f k w) := by
  unfold memWrite; simp only [withUnread]; cases addressFault s.memWords a <;> rfl

theorem effectiveAddress_withUnread (p : Param) (s : State) :
    effectiveAddress p (withUnread b f k w s) = effectiveAddress p s := rfl

theorem readOperand_withUnread (p : Param) (s : State) :
    readOperand p (withUnread b f k w s) = (readOperand p s).mapState (withUnread b f k w) := by
  unfold readOperand
  rw [effectiveAddress_withUnread]
  cases effectiveAddress p s with
  | none => rfl
  | some a => exact memRead_withUnread b f k w a s

theorem writeAddress_withUnread (p : Param) (s : State) :
    writeAddress p (withUnread b f k w s) = (writeAddress p s).mapState (withUnread b f k w) := by
  unfold writeAddress
  rw [effectiveAddress_withUnread]
  cases effectiveAddress p s with
  | none => rfl
  | some a => simp only [withUnread]; cases addressFault s.memWords a <;> rfl

theorem checkTarget_withUnread (p : Param) (s : State) :
    checkTarget p (withUnread b f k w s) = (checkTarget p s).mapState (withUnread b f k w) := by
  unfold checkTarget; split <;> rfl

theorem narrow_withUnread (v : Int) (s : State) :
    narrow v (withUnread b f k w s) = (narrow v s).mapState (withUnread b f k w) := by
  unfold narrow; cases narrow? v <;> rfl

theorem nextIp_withUnread (len : Nat) (s : State) :
    nextIp len (withUnread b f k w s) = (nextIp len s).mapState (withUnread b f k w) :=
  narrow_withUnread b f k w _ s

theorem computeAndStore_withUnread (g : Word → Word → Int) (x y z : Param) (s : State) :
    computeAndStore g x y z (withUnread b f k w s) = (computeAndStore g x y z s).mapState (withUnread b f k w) := by
  unfold computeAndStore
  rw [checkTarget_withUnread]; refine Res.bind_mapState fun _ s => ?_
  rw [readOperand_withUnread]; refine Res.bind_mapState fun _ s => ?_
  rw [readOperand_withUnread]; refine Res.bind_mapState fun _ s => ?_
  rw [writeAddress_withUnread]; refine Res.bind_mapState fun _ s => ?_
  rw [narrow_withUnread]; refine Res.bind_mapState fun _ s => ?_
  rw [nextIp_withUnread]; refine Res.bind_mapState fun _ s => ?_
  rw [memWrite_withUnread]; exact Res.bind_mapState fun _ s => rfl

theorem jumpWhen_withUnread (cond : Word → Bool) (x y : Param) (s : State) :
    jumpWhen cond x y (withUnread b f k w s) = (jumpWhen cond x y s).mapState (withUnread b f k w) := by
  unfold jumpWhen
  rw [readOperand_withUnread]; refine Res.bind_mapState fun _ s => ?_
  rw [readOperand_withUnread]; refine Res.bind_mapState fun _ s => ?_
  split
  · rfl
  · rw [nextIp_withUnread]; exact Res.bind_mapState fun _ s => rfl

end Sys2Proof.Machine
end

