-- ==== Sys2Proof/Tests/Slice0.lean ====
section
/-! SUPPORT. Tests with results from the spec's vectors (95_test_vectors; the vector is named at each), and for every
statement with hypotheses a witness that meets them. -/

namespace Sys2Proof.Tests

open Sys2Proof Sys2Proof.Machine

/-! ## Small states and one step -/

/-- A core with the program loaded and an invocation with the value 7 begun. -/
def started (program : List Int) : State := hostInvoke 7 (loaded (program.map (BitVec.ofInt 64)) State.reset)

/-- The state after one step, which always answers a next state. -/
def stepped (s : State) : State :=
  match step s with
  | .next t => t
  | .fault _ => s
  | .refused _ => s

/-- The word at an address, as an integer. -/
def wordAt (s : State) (a : Nat) : Int := (readCell s.mem a).toInt

/-! ## Well-formedness: one ill-formed term for each check (30_encoding R99) -/

theorem test_wf_add : Instr.wellFormed (.add ⟨.immediate, 1⟩ ⟨.immediate, 1⟩ ⟨.immediate, 5⟩) = false := by decide
theorem test_wf_mul : Instr.wellFormed (.mul ⟨.position, 1⟩ ⟨.position, 1⟩ ⟨.immediate, 5⟩) = false := by decide
theorem test_wf_inp : Instr.wellFormed (.inp ⟨.immediate, 5⟩) = false := by decide
theorem test_wf_lt : Instr.wellFormed (.lt ⟨.position, 1⟩ ⟨.position, 1⟩ ⟨.immediate, 5⟩) = false := by decide
theorem test_wf_eq : Instr.wellFormed (.eq ⟨.position, 1⟩ ⟨.position, 1⟩ ⟨.immediate, 5⟩) = false := by decide
theorem test_wf_accepts :
    Instr.wellFormed (.add ⟨.immediate, 1⟩ ⟨.immediate, 1⟩ ⟨.relative, 5⟩) = true ∧
    Instr.wellFormed (.out ⟨.immediate, 5⟩) = true ∧ Instr.wellFormed (.jt ⟨.immediate, 1⟩ ⟨.immediate, 0⟩) = true := by
  decide

/-! ## Decoding of words written out from the spec (30_encoding R110; 95 V-D) -/

-- V-D3, digit pattern CBA01 with A, B, C = 2
theorem test_decode_add : decode [22201, 7, 8, 9] = .ok (.add ⟨.relative, 7⟩ ⟨.relative, 8⟩ ⟨.relative, 9⟩, []) := rfl
-- V-D1
theorem test_decode_mul : decode [1002, 4, 3, 4] = .ok (.mul ⟨.position, 4⟩ ⟨.immediate, 3⟩ ⟨.position, 4⟩, []) := rfl
-- V-D5
theorem test_decode_inp : decode [203, 4] = .ok (.inp ⟨.relative, 4⟩, []) := rfl
-- V-D9, the digits above m1 ignored
theorem test_decode_out : decode [21104, 5] = .ok (.out ⟨.immediate, 5⟩, []) := rfl
-- V-D7
theorem test_decode_jt : decode [2105, 1, 2] = .ok (.jt ⟨.immediate, 1⟩ ⟨.relative, 2⟩, []) := rfl
-- W9, 1006,101,0
theorem test_decode_jf : decode [1006, 101, 0] = .ok (.jf ⟨.position, 101⟩ ⟨.immediate, 0⟩, []) := rfl
-- V-C1, 1107,-1,0,5
theorem test_decode_lt : decode [1107, -1, 0, 5] = .ok (.lt ⟨.immediate, -1⟩ ⟨.immediate, 0⟩ ⟨.position, 5⟩, []) := rfl
-- W9, 1008,100,16,101
theorem test_decode_eq :
    decode [1008, 100, 16, 101] = .ok (.eq ⟨.position, 100⟩ ⟨.immediate, 16⟩ ⟨.position, 101⟩, []) := rfl
-- V-D6
theorem test_decode_arb : decode [109, 1, 204] = .ok (.arb ⟨.immediate, 1⟩, [204]) := rfl
-- V-D8
theorem test_decode_halt : decode [199] = .ok (.halt, []) ∧ decode [20099] = .ok (.halt, []) := ⟨rfl, rfl⟩
-- V-D10, V-D11, V-D13, V-D14
theorem test_decode_invalid_mode :
    decodeHeader 399 = .error .invalidMode ∧ decodeHeader 5003 = .error .invalidMode ∧
    decodeHeader 100001 = .error .invalidMode ∧ decodeHeader 10301 = .error .invalidMode := ⟨rfl, rfl, rfl, rfl⟩
-- V-D12, V-D15, V-D16
theorem test_decode_unknown_opcode :
    decodeHeader 50010 = .error .unknownOpcode ∧ decodeHeader (-99) = .error .unknownOpcode ∧
    decodeHeader (-1) = .error .unknownOpcode ∧ decodeHeader 0 = .error .unknownOpcode ∧
    decodeHeader 98 = .error .unknownOpcode ∧ decodeHeader 100 = .error .unknownOpcode := ⟨rfl, rfl, rfl, rfl, rfl, rfl⟩
-- V-D17, V-D18: they decode, and phase 4 refuses them
theorem test_decode_bad_target :
    decode [11101, 0, 0, 0] = .ok (.add ⟨.immediate, 0⟩ ⟨.immediate, 0⟩ ⟨.immediate, 0⟩, []) ∧
    decode [103, 0] = .ok (.inp ⟨.immediate, 0⟩, []) := ⟨rfl, rfl⟩
-- the table's numbering: 1105 in the first word, 1 in the second
theorem test_table_word :
    decodeTableWord 192 (1105 + 2 ^ 64) = some (.jt ⟨.immediate, 1⟩ ⟨.immediate, 0⟩) ∧ decodeTableWord 64 0 = none := by
  decide

/-! ## One step of each instruction -/

-- V-A9: the destination is both sources
theorem test_add_in_place : wordAt (stepped (started [1, 5, 5, 5, 99, 21])) 5 = 42 := by decide
-- V-A3: nothing is written and IP stays
theorem test_add_overflow :
    let t := stepped (started [1101, 9223372036854775807, 1, 5, 99, 0])
    (t.faultKind = .arithmeticOverflow ∧ t.ip = 0 ∧ wordAt t 5 = 0) ∧ statusWord t = 82 := by decide
-- V-A6
theorem test_mul_signs : wordAt (stepped (started [1102, -3, 4, 5, 99, 0])) 5 = -12 := by decide
-- V-A7
theorem test_mul_overflow :
    (stepped (started [1102, -9223372036854775808, -1, 5, 99, 0])).faultKind = .arithmeticOverflow := by decide
-- V-IO8 from its second instruction on, RB = 3: the value 7 is stored at 4 + 3 and consumed
theorem test_inp_relative :
    let t := stepped { started [109, 3, 203, 4, 4, 7, 99, 0] with ip := 2, rb := 3 }
    wordAt t 7 = 7 ∧ t.inValid = false ∧ t.ip = 4 := by decide
-- V-IO2: the second input in one invocation suspends, IP stays at it
theorem test_inp_needInput :
    let t := stepped { started [3, 9, 3, 10] with ip := 2, inValid := false }
    t.ip = 2 ∧ t.busy = false ∧ t.hostInbox = [.outcome .needInput] ∧ t.faulted = false := by decide
-- V-IO5
theorem test_out_least :
    let t := stepped (started [104, -9223372036854775808, 99])
    t.out.toInt = -9223372036854775808 ∧ t.ip = 2 ∧ t.busy = false ∧ t.inValid = false := by decide
-- V-M3: a read at MEM_WORDS
theorem test_out_of_storage :
    (stepped { started [4, 4, 99] with memWords := some 4 }).faultKind = .outOfStorage := by decide
-- V-J5: a negative condition is true
theorem test_jt_negative : (stepped (started [1105, -5, 4, 99, 104, 9, 99])).ip = 4 := by decide
-- V-J2
theorem test_jt_not_taken : (stepped (started [1105, 0, 7, 99])).ip = 3 := by decide
-- V-J3: the jump takes the negative target, and the next fetch faults
theorem test_jf_negative_target :
    let t := stepped (started [1106, 0, -1])
    (t.ip = -1 ∧ t.busy = true) ∧ (stepped t).faultKind = .invalidAddress ∧ (stepped t).ip = -1 := by decide
-- V-J8
theorem test_jf_not_taken : (stepped (started [1106, 1, 0, 99])).ip = 3 := by decide
-- V-C7
theorem test_lt_signed :
    wordAt (stepped (started [1107, -9223372036854775808, 9223372036854775807, 5, 99, 7])) 5 = 1 := by decide
-- V-C2
theorem test_lt_equal : wordAt (stepped (started [1107, 3, 3, 5, 99, 7])) 5 = 0 := by decide
-- V-C4
theorem test_eq_signed : wordAt (stepped (started [1108, -1, 9223372036854775807, 5, 99, 7])) 5 = 0 := by decide
-- V-C5: the write target's mode
theorem test_eq_bad_target : (stepped (started [11108, 1, 2, 5, 99])).faultKind = .invalidWriteTarget := by decide
-- V-S4 with RB = 1: the operand is read with the old RB, M[2 + 1] = 5
theorem test_arb_old_base : (stepped { started [209, 2, 99, 5] with rb := 1 }).rb = 6 := by decide
-- V-S5, its second instruction
theorem test_arb_overflow :
    let t := stepped { started [109, 0, 109, 1, 99] with ip := 2, rb := 9223372036854775807 }
    t.faultKind = .arithmeticOverflow ∧ t.rb = 9223372036854775807 ∧ t.ip = 2 := by decide
-- V-S8: an ignored mode digit
theorem test_halt_ignored_digit :
    let t := stepped (started [20099])
    t.halted = true ∧ t.ip = 1 ∧ t.hostInbox = [.outcome .halted] ∧ statusWord t = 1 := by decide
-- V-S7
theorem test_halt_invalid_mode : (stepped (started [399])).faultKind = .invalidMode := by decide

/-! ## Fetch, priority, host and assembler -/

-- W5 (20_memory R77): the next fetch sees the word just written
theorem test_self_modifying : wordAt (stepped (stepped (started [1, 1, 1, 4, 99, 5, 6, 0, 99]))) 0 = 30 := by decide
-- V-M8: a parameter fetch at MEM_WORDS
theorem test_parameter_fetch : (stepped { started [1] with memWords := some 3 }).faultKind = .outOfStorage := by decide
-- V-P4: the write address before the sum
theorem test_priority : (stepped (started [1101, 9223372036854775807, 1, -1, 99])).faultKind = .invalidAddress := by decide
-- V-H2: the host's moves as data; the third step is the halt, and then STATUS and IP are inspected
theorem test_host_moves :
    let s := { State.reset with
      hostMoves := [.onIdle (.load [1, 0, 0, 0, 99]), .onIdle (.invoke 0), .onIdle (.inspect 2), .onIdle (.inspect 0)] }
    (stepped (stepped (stepped (stepped (stepped (stepped s)))))).hostInbox =
      [.value 5, .value 1, .outcome .halted] := by decide
-- V-H4, V-H7
theorem test_host_refusals :
    (hostIssue (.inspect 4) State.reset).hostInbox = [.hostError] ∧
    (hostIssue (.inspectMem (-1)) State.reset).hostInbox = [.hostError] ∧
    hostIssue (.load [9223372036854775808]) State.reset = refuse State.reset := by decide
-- V-H6
theorem test_reset_while_busy : hostIssue .reset (started [1105, 1, 0]) = State.reset := by decide
-- 30_encoding R115, R116: `mul [4], 3, [4]`, and `jmp loop` back to address 0
theorem test_assembler :
    assemble [.label "loop", .instr .mul [⟨.position, .lit 4⟩, ⟨.immediate, .lit 3⟩, ⟨.position, .lit 4⟩],
      .jmp ⟨.immediate, .label "loop"⟩] = some [1002, 4, 3, 4, 1105, 1, 0] := by decide
-- 30_encoding R115
theorem test_disassembler :
    disassemble (.mul ⟨.position, 4⟩ ⟨.immediate, 3⟩ ⟨.relative, -4⟩) = "mul [4], 3, [rb-4]" := by decide
-- the host's placing: the very next step runs the placed halt
theorem test_withFetchWord : (stepped (State.reset.withFetchWord 64 99)).halted = true := by decide
-- W10: two rounds of one core of the first amplifier program are enough for its NeedInput and Produced(4)
theorem test_single_amplifier :
    (invokeAll 9 [4, 0] (loaded [3, 15, 3, 16, 1002, 16, 10, 16, 1, 16, 15, 15, 4, 15, 99, 0, 0] State.reset)).map
      (fun r => r.1) = some [.needInput, .produced 4] := by decide
-- 70_reset R260: the signal `outcome` is 0 after the clearing part of Load
theorem test_ld_clear_outcome :
    (clockEdge ⟨false, false, 0, true, false, 0, 0⟩ ⟨State.reset, true, 3⟩).outcome = 0 := by decide
-- 60_exceptions R244: the range [5, 9] of W11
theorem test_network_phases : networkPhases 5 9 = [5, 6, 7, 8, 9] := by decide
-- 60_exceptions R244: lexicographic order
theorem test_permutations : permutations 3 [0, 1, 2] =
    [[0, 1, 2], [0, 2, 1], [1, 0, 2], [1, 2, 0], [2, 0, 1], [2, 1, 0]] := by decide

/-! ## Witnesses -/

/-- A busy core of ten words with `RB = -3` and `IP = 2^63 - 5`, so that an advance by 4 is the last that fits. -/
def edge : State :=
  { State.reset with
    ip := 9223372036854775803
    rb := -3
    inData := 8
    inValid := true
    busy := true
    mlen := 2
    mem := [(0, 5), (1, 9223372036854775807)]
    memWords := some 10 }

/-- The same with `IP = 2^63 - 1`: no advance fits. -/
def top : State := { edge with ip := 9223372036854775807 }

theorem edge_accessible {a : Int} (h0 : 0 ≤ a) (h1 : a < 10) : Accessible edge a :=
  ⟨h0, fun c hc => by cases hc; exact h1⟩

theorem top_accessible {a : Int} (h0 : 0 ≤ a) (h1 : a < 10) : Accessible top a :=
  ⟨h0, fun c hc => by cases hc; exact h1⟩

theorem edge_reads : ReadsAs ⟨.position, 9⟩ edge 0 ∧ ReadsAs ⟨.relative, 3⟩ edge 5 ∧ ReadsAs ⟨.immediate, -1⟩ edge (-1) :=
  ⟨⟨edge_accessible (by decide) (by decide), rfl⟩, ⟨edge_accessible (by decide) (by decide), rfl⟩, rfl⟩

/-- The faults of an operand at their boundaries: address -1 in both modes, and address `MEM_WORDS`. -/
theorem edge_faults :
    OperandFaults ⟨.position, -1⟩ edge .invalidAddress ∧ OperandFaults ⟨.relative, 2⟩ edge .invalidAddress ∧
    OperandFaults ⟨.position, 10⟩ edge .outOfStorage ∧ OperandFaults ⟨.relative, 13⟩ edge .outOfStorage :=
  ⟨⟨-1, rfl, .inl ⟨by decide, rfl⟩⟩, ⟨-1, rfl, .inl ⟨by decide, rfl⟩⟩,
    ⟨10, rfl, .inr ⟨by decide, ⟨10, rfl, by decide⟩, rfl⟩⟩, ⟨10, rfl, .inr ⟨by decide, ⟨10, rfl, by decide⟩, rfl⟩⟩⟩

theorem witness_AcceptedWordsAreSpellings :
    decodeHeader 1002 = .ok ⟨.mul, .position, .immediate, .position⟩ ∧ decode (20099 :: [5]) = .ok (.halt, [5]) :=
  ⟨rfl, rfl⟩

/-- The four clauses at their boundaries: -1; 0 and 98; 301 and 100001; 22299. -/
theorem witness_DecoderOnEveryWord :
    (BitVec.toInt (-1 : Word) < 0) ∧
    (0 ≤ BitVec.toInt (0 : Word) ∧ BitVec.toInt (0 : Word) % 100 ∉ opcodeValues) ∧
    (0 ≤ BitVec.toInt (98 : Word) ∧ BitVec.toInt (98 : Word) % 100 ∉ opcodeValues) ∧
    (0 ≤ BitVec.toInt (301 : Word) ∧ BitVec.toInt (301 : Word) % 100 ∈ opcodeValues ∧ BadModeDigit 301) ∧
    (0 ≤ BitVec.toInt (100001 : Word) ∧ BitVec.toInt (100001 : Word) % 100 ∈ opcodeValues ∧ BadModeDigit 100001) ∧
    (0 ≤ BitVec.toInt (22299 : Word) ∧ BitVec.toInt (22299 : Word) % 100 ∈ opcodeValues ∧ ¬ BadModeDigit 22299) := by
  unfold BadModeDigit; decide

theorem witness_LengthByOpcode : decode (104 :: [5, 6]) = .ok (.out ⟨.immediate, 5⟩, [6]) := rfl

/-- The completing clause of add: reads in all three modes, a target at the last address, the last advance that fits. -/
theorem witness_AddRule :
    ReadsAs ⟨.position, 9⟩ edge 0 ∧ ReadsAs ⟨.relative, 3⟩ edge 5 ∧
    effectiveAddress ⟨.relative, 12⟩ edge = some 9 ∧ Accessible edge 9 ∧ edge.mem.wf = true ∧
    fits64 (BitVec.toInt (0 : Word) + BitVec.toInt (5 : Word)) = true ∧ fits64 (edge.ip.toInt + 4) = true :=
  ⟨edge_reads.1, edge_reads.2.1, rfl, edge_accessible (by decide) (by decide), rfl, by decide, by decide⟩

theorem witness_MultiplyRule :
    ReadsAs ⟨.position, 1⟩ edge 9223372036854775807 ∧ ReadsAs ⟨.immediate, -1⟩ edge (-1) ∧
    effectiveAddress ⟨.position, 0⟩ edge = some 0 ∧ Accessible edge 0 ∧ edge.mem.wf = true ∧
    fits64 (BitVec.toInt (9223372036854775807 : Word) * BitVec.toInt (-1 : Word)) = true ∧
    fits64 (edge.ip.toInt + 4) = true :=
  ⟨⟨edge_accessible (by decide) (by decide), rfl⟩, rfl, rfl, edge_accessible (by decide) (by decide), rfl, by decide,
    by decide⟩

/-- The completing clauses of less-than and equals. -/
theorem witness_LessThanRule_EqualsRule :
    ReadsAs ⟨.position, 9⟩ edge 0 ∧ ReadsAs ⟨.immediate, -1⟩ edge (-1) ∧
    effectiveAddress ⟨.relative, 3⟩ edge = some 0 ∧ Accessible edge 0 ∧ edge.mem.wf = true ∧
    fits64 (edge.ip.toInt + 4) = true :=
  ⟨edge_reads.1, edge_reads.2.2, rfl, edge_accessible (by decide) (by decide), rfl, by decide⟩

/-- The faulting clauses of add and multiply (`F3Faults`): sums and products that do not fit, and an advance that does
not; those of less-than and equals meet the last. The operands' faults are `edge_faults`. -/
theorem witness_F3Faults :
    ReadsAs ⟨.position, 1⟩ edge 9223372036854775807 ∧ ReadsAs ⟨.relative, 3⟩ edge 5 ∧
    fits64 (BitVec.toInt (9223372036854775807 : Word) + BitVec.toInt (5 : Word)) = false ∧
    fits64 (BitVec.toInt (9223372036854775807 : Word) * BitVec.toInt (5 : Word)) = false ∧
    effectiveAddress ⟨.position, 9⟩ edge = some 9 ∧ Accessible edge 9 ∧
    ReadsAs ⟨.immediate, 1⟩ top 1 ∧ effectiveAddress ⟨.position, 9⟩ top = some 9 ∧ Accessible top 9 ∧
    fits64 (top.ip.toInt + 4) = false :=
  ⟨⟨edge_accessible (by decide) (by decide), rfl⟩, edge_reads.2.1, by decide, by decide, rfl,
    edge_accessible (by decide) (by decide), rfl, rfl, top_accessible (by decide) (by decide), by decide⟩

theorem witness_InvalidModeFor :
    (0 ≤ BitVec.toInt (301 : Word) ∧ BitVec.toInt (301 : Word) % 100 = 1 ∧ BadModeDigit 301) ∧
    (0 ≤ BitVec.toInt (3002 : Word) ∧ BitVec.toInt (3002 : Word) % 100 = 2 ∧ BadModeDigit 3002) ∧
    (0 ≤ BitVec.toInt (5003 : Word) ∧ BitVec.toInt (5003 : Word) % 100 = 3 ∧ BadModeDigit 5003) ∧
    (0 ≤ BitVec.toInt (30004 : Word) ∧ BitVec.toInt (30004 : Word) % 100 = 4 ∧ BadModeDigit 30004) ∧
    (0 ≤ BitVec.toInt (305 : Word) ∧ BitVec.toInt (305 : Word) % 100 = 5 ∧ BadModeDigit 305) ∧
    (0 ≤ BitVec.toInt (306 : Word) ∧ BitVec.toInt (306 : Word) % 100 = 6 ∧ BadModeDigit 306) ∧
    (0 ≤ BitVec.toInt (100007 : Word) ∧ BitVec.toInt (100007 : Word) % 100 = 7 ∧ BadModeDigit 100007) ∧
    (0 ≤ BitVec.toInt (308 : Word) ∧ BitVec.toInt (308 : Word) % 100 = 8 ∧ BadModeDigit 308) ∧
    (0 ≤ BitVec.toInt (909 : Word) ∧ BitVec.toInt (909 : Word) % 100 = 9 ∧ BadModeDigit 909) ∧
    (0 ≤ BitVec.toInt (399 : Word) ∧ BitVec.toInt (399 : Word) % 100 = 99 ∧ BadModeDigit 399) := by
  unfold BadModeDigit
  refine ⟨?_, ?_, ?_, ?_, ?_, ?_, ?_, ?_, ?_, ?_⟩ <;> decide

/-- Input: with a value; without one in a Running core; with a value at the top of the address range. -/
theorem witness_InputRule :
    (effectiveAddress ⟨.relative, 12⟩ edge = some 9 ∧ Accessible edge 9 ∧ edge.mem.wf = true ∧ edge.inValid = true ∧
      fits64 (edge.ip.toInt + 2) = true) ∧
    (Accessible { edge with inValid := false } 9 ∧ edge.halted = false ∧ edge.faulted = false) ∧
    (effectiveAddress ⟨.position, 0⟩ top = some 0 ∧ Accessible top 0 ∧ top.inValid = true ∧
      fits64 (top.ip.toInt + 2) = false) :=
  ⟨⟨rfl, edge_accessible (by decide) (by decide), rfl, rfl, by decide⟩,
    ⟨edge_accessible (by decide) (by decide), rfl, rfl⟩, rfl, top_accessible (by decide) (by decide), rfl, by decide⟩

/-- Output, adjust-relative-base and the jumps where they complete and where their advance or sum does not fit. -/
theorem witness_OutputRule_AdjustRelativeBaseRule_Jumps :
    (ReadsAs ⟨.relative, 3⟩ edge 5 ∧ fits64 (edge.rb.toInt + BitVec.toInt (5 : Word)) = true ∧
      fits64 (edge.ip.toInt + 2) = true ∧ fits64 (edge.ip.toInt + 3) = true) ∧
    (ReadsAs ⟨.immediate, 0⟩ top 0 ∧ fits64 (top.ip.toInt + 2) = false ∧ fits64 (top.ip.toInt + 3) = false) ∧
    (ReadsAs ⟨.immediate, -9223372036854775806⟩ edge (-9223372036854775806) ∧
      fits64 (edge.rb.toInt + BitVec.toInt (-9223372036854775806 : Word)) = false) :=
  ⟨⟨edge_reads.2.1, by decide, by decide, by decide⟩, ⟨rfl, by decide, by decide⟩, rfl, by decide⟩

/-- Both jumps taken and not taken. -/
theorem witness_JumpRules :
    (ReadsAs ⟨.immediate, -1⟩ top (-1) ∧ BitVec.toInt (-1 : Word) ≠ 0) ∧
    (ReadsAs ⟨.immediate, 0⟩ top 0 ∧ BitVec.toInt (0 : Word) = 0) ∧
    (ReadsAs ⟨.immediate, 0⟩ edge 0 ∧ fits64 (edge.ip.toInt + 3) = true) :=
  ⟨⟨rfl, by decide⟩, ⟨rfl, by decide⟩, rfl, by decide⟩

theorem witness_HaltRule : fits64 (edge.ip.toInt + 1) = true ∧ fits64 (top.ip.toInt + 1) = false := by decide

/-- A taken jump to -1 and to the empty address 9, in a busy core whose host has no move. -/
theorem witness_JumpTargetsAreLoadedExactly :
    (ReadsAs ⟨.immediate, 1⟩ edge 1 ∧ ReadsAs ⟨.immediate, -1⟩ edge (-1) ∧ BitVec.toInt (-1 : Word) < 0) ∧
    (ReadsAs ⟨.immediate, 9⟩ edge 9 ∧ Accessible edge 9 ∧ readCell edge.mem 9 = 0) ∧
    edge.busy = true ∧ servedOp edge = none :=
  ⟨⟨rfl, rfl, by decide⟩, ⟨rfl, edge_accessible (by decide) (by decide), rfl⟩, rfl, rfl⟩

theorem witness_MemoryAccess_AutoExtension :
    edge.mem.wf = true ∧ cellsBelow edge.mem edge.mlen = true ∧ Accessible edge 9 ∧ (edge.mlen : Int) ≤ 9 ∧
    edge.memWords = some 10 ∧ step edge = .next (stepped edge) ∧ servedOp edge = none :=
  ⟨rfl, rfl, edge_accessible (by decide) (by decide), by decide, rfl, rfl, rfl⟩

theorem witness_HiddenStateIsUnobservable :
    hideUnobservable State.reset = hideUnobservable { State.reset with mlen := 9, inData := 5 } := rfl

/-- A step that stores, one that halts, one that faults, one that outputs, one that moves `RB`. -/
theorem witness_Writers :
    (stepped (started [1101, 2, 3, 5])).mem ≠ (started [1101, 2, 3, 5]).mem ∧
    (stepped (started [99])).halted = true ∧ (stepped (started [0])).faulted = true ∧
    (stepped (started [104, 3])).out ≠ (started [104, 3]).out ∧
    (stepped (started [109, 3])).rb ≠ (started [109, 3]).rb := by decide

/-- A Load clears what the flags and registers held. -/
theorem witness_Writers_load :
    let s := { State.reset with halted := true, rb := 4, out := 5, hostMoves := [.issue .reset] }
    servedOp s = some .reset ∧ (stepped s).halted = false ∧ (stepped s).rb ≠ s.rb ∧ (stepped s).out ≠ s.out := by decide

theorem legal_reset : LegalState State.reset := ⟨rfl, rfl, rfl, by decide, by decide, by decide, by decide⟩

theorem legal_started : LegalState (started [3, 9, 99]) := ⟨rfl, rfl, rfl, by decide, by decide, by decide, by decide⟩

theorem witness_StepKeepsLegal :
    LegalState (started [3, 9, 99]) ∧ step (started [3, 9, 99]) = .next (stepped (started [3, 9, 99])) :=
  ⟨legal_started, rfl⟩

theorem witness_InstructionPointerMoves_FramesOfUnreadFields :
    ∃ t, exec (.out ⟨.immediate, 5⟩) State.reset = .next t ∧ t.ip = 2 := ⟨_, rfl, by decide⟩

/-- A halt as the last word of a memory of one word. -/
theorem witness_StepRunsTheDecodedInstruction :
    let s := { started [99] with memWords := some 1 }
    servedOp s = none ∧ s.busy = true ∧ decode (wordsAt s s.ip.toInt 4) = .ok (.halt, [0, 0, 0]) ∧
      Instr.wellFormed .halt = true ∧ ∀ j : Nat, j < Instr.length .halt → Accessible s (s.ip.toInt + j) :=
  ⟨rfl, rfl, rfl, rfl, fun j hj => by
    have hj0 : j = 0 := by have : Instr.length .halt = 1 := rfl; omega
    subst hj0
    exact ⟨by decide, fun c hc => by cases hc; decide⟩⟩

/-- The clauses of the fetch: `IP` outside the memory; words 98, 301, 11101 and 103; parameters past `MEM_WORDS`. -/
theorem witness_FetchFaultsInOrder :
    (AddressFaults { edge with ip := -1 } (-1) .invalidAddress ∧ AddressFaults { edge with ip := 10 } 10 .outOfStorage) ∧
    (BitVec.toInt (98 : Word) % 100 ∉ opcodeValues ∧ BadModeDigit 301 ∧ ¬ BadModeDigit 11101 ∧
      BitVec.toInt (11101 : Word) / 10000 % 10 = 1 ∧ ¬ BadModeDigit 103 ∧ BitVec.toInt (103 : Word) / 100 % 10 = 1) ∧
    (readCell { started [1] with memWords := some 3 }.mem 0 = 1 ∧
      decodeHeader 1 = .ok ⟨.add, .position, .position, .position⟩ ∧
      ∃ j : Nat, j < Opcode.add.length ∧ ¬ Accessible { started [1] with memWords := some 3 } (0 + j)) :=
  ⟨⟨.inl ⟨by decide, rfl⟩, .inr ⟨by decide, ⟨10, rfl, by decide⟩, rfl⟩⟩, by unfold BadModeDigit; decide,
    rfl, rfl, 3, by decide, fun h => by have := h.2 3 rfl; omega⟩

/-- A faulting step of a busy core. -/
theorem witness_FaultsArePrecise :
    let s := started [1, -1, 0, 0]
    servedOp s = none ∧ s.busy = true ∧ step s = .next (stepped s) ∧ (stepped s).busy = false ∧
      deliveredOutcome (stepped s) = some (.fault .invalidAddress) := ⟨rfl, rfl, rfl, by decide, by decide⟩

/-- Each of the four stops, and a step that goes on. -/
theorem witness_StopsDeliverOneOutcome_CausesOfStops :
    deliveredOutcome (stepped (started [104, 5])) = some (.produced 5) ∧
    deliveredOutcome (stepped (started [99])) = some .halted ∧
    deliveredOutcome (stepped { started [3, 9] with inValid := false }) = some .needInput ∧
    deliveredOutcome (stepped (started [98])) = some (.fault .unknownOpcode) ∧
    (started [104, 5]).busy = true ∧ servedOp (started [104, 5]) = none ∧ (stepped (started [104, 5])).busy = false ∧
    (stepped (started [3, 9])).busy = true := by decide

/-- Invoke: busy, idle and Halted, idle and Faulted, idle and Running. -/
theorem witness_InvokeRule :
    (started [99]).busy = true ∧ servedOp (started [99]) = none ∧
    ((stepped (started [99])).busy = false ∧ (stepped (started [99])).halted = true) ∧
    ((stepped (started [98])).busy = false ∧ (stepped (started [98])).halted = false ∧
      (stepped (started [98])).faulted = true) ∧
    (State.reset.busy = false ∧ State.reset.halted = false ∧ State.reset.faulted = false) := by decide

/-- Load and the entry point: a program that fills the memory; one word too many; a word that is no Word. -/
theorem witness_LoadRule_EntryPoint :
    let s := { State.reset with memWords := some 2 }
    s.busy = false ∧ (∀ x ∈ [99, -9223372036854775808], fits64 x = true) ∧
      (∀ c, s.memWords = some c → [99, (-9223372036854775808 : Int)].length ≤ c) ∧
      (∃ c, s.memWords = some c ∧ c < [99, 99, (99 : Int)].length) ∧
      (∃ x ∈ [99, (9223372036854775808 : Int)], fits64 x = false) :=
  ⟨rfl, by decide, fun c hc => by cases hc; decide, ⟨2, rfl, by decide⟩, ⟨9223372036854775808, by simp, by decide⟩⟩

theorem witness_ResetAtAnyTime :
    (started [1105, 1, 0]).memWords = State.reset.memWords ∧ (started [1105, 1, 0]).hostMoves = State.reset.hostMoves ∧
    (started [1105, 1, 0]).hostInbox = State.reset.hostInbox := by decide

/-- Inspect: busy and idle; the last address of the memory, and the addresses on both sides of it. -/
theorem witness_InspectRule :
    (started [99]).busy = true ∧ State.reset.busy = false ∧
    Accessible { edge with busy := false } 9 ∧ AddressFaults { edge with busy := false } 10 .outOfStorage ∧
    AddressFaults { edge with busy := false } (-1) .invalidAddress :=
  ⟨rfl, rfl, edge_accessible (by decide) (by decide), .inr ⟨by decide, ⟨10, rfl, by decide⟩, rfl⟩,
    .inl ⟨by decide, rfl⟩⟩

/-- A Halted and a Faulted core that is invoked again, which is no Load and no Reset. -/
theorem witness_TerminalStatusStays :
    let s := { stepped (started [99]) with hostMoves := [.onIdle (.invoke 3)] }
    let t := { stepped (started [98]) with hostMoves := [.onIdle (.invoke 3)] }
    s.busy = false ∧ s.halted = true ∧ t.busy = false ∧ t.faulted = true ∧ servedOp s = some (.invoke 3) ∧
      step s = .next (stepped s) ∧ ¬ ServesLoadOrReset s :=
  ⟨rfl, rfl, rfl, rfl, rfl, rfl, fun h => by
    rcases h with h | ⟨p, h⟩
    · exact absurd h (by decide)
    · rw [show servedOp { stepped (started [99]) with hostMoves := [.onIdle (.invoke 3)] } = some (.invoke 3) from rfl] at h
      cases h⟩

/-- A legal busy core at an input instruction, its value already consumed. -/
def secondInput : State := { started [3, 0] with inValid := false }

theorem witness_NeedInputResumes :
    LegalState secondInput ∧ RunsInstr secondInput (.inp ⟨.position, 0⟩) ∧ secondInput.inValid = false ∧
    step secondInput = .next (stepped secondInput) ∧ deliveredOutcome (stepped secondInput) = some .needInput ∧
    (stepped secondInput).busy = false :=
  ⟨⟨rfl, rfl, rfl, by decide, by decide, by decide, by decide⟩, ⟨rfl, rfl, _, rfl⟩, rfl, rfl, by decide, by decide⟩

/-- Invocations of an idle legal core that stop, with each outcome; both cores hold the same checkpoint. -/
theorem witness_InvocationOutcome_CheckpointDeterminesInvocation :
    LegalState State.reset ∧ State.reset.busy = false ∧
    (invokeWithin 1 5 (loaded [104, 7] State.reset)).map Prod.fst = some (.produced 7) ∧
    (invokeWithin 1 5 (loaded [99] State.reset)).map Prod.fst = some .halted ∧
    (invokeWithin 1 5 State.reset).map Prod.fst = some (.fault .unknownOpcode) ∧
    (invokeWithin 2 5 (loaded [3, 9, 3, 10] State.reset)).map Prod.fst = some .needInput ∧
    SameCheckpoint State.reset { State.reset with inData := 3, mlen := 5 } :=
  ⟨legal_reset, rfl, by decide, by decide, by decide, by decide, rfl, rfl, rfl, rfl, rfl, rfl, rfl, rfl⟩

/-- V-J7 and its like with jump-if-false. -/
theorem witness_JumpToItselfNeverStops :
    (started [1105, 1, 0]).busy = true ∧
    (∀ j : Nat, j < 3 → Accessible (started [1105, 1, 0]) ((started [1105, 1, 0]).ip.toInt + j)) ∧
    decode (wordsAt (started [1105, 1, 0]) (started [1105, 1, 0]).ip.toInt 4) =
      .ok (.jt ⟨.immediate, 1⟩ ⟨.immediate, 0⟩, [0]) ∧
    decode (wordsAt (started [1106, 0, 0]) (started [1106, 0, 0]).ip.toInt 4) =
      .ok (.jf ⟨.immediate, 0⟩ ⟨.immediate, 0⟩, [0]) :=
  ⟨rfl, fun j _ => ⟨by
    have : (started [1105, 1, 0]).ip.toInt = 0 := rfl
    rw [this]; omega, fun c hc => by cases hc⟩, rfl, rfl⟩

theorem witness_InvokeAfterResetFaults : State.reset.hostMoves = [] ∧ State.reset.memWords ≠ some 0 := by decide

theorem witness_RunsAreReproducible :
    (started [1105, 1, 0]).memWords = State.reset.memWords ∧
    (invokeAll 3 [7, 0] (loaded [3, 0, 4, 0, 99] State.reset)).map Prod.fst = some [.produced 7, .halted] := by decide

theorem witness_CoresAreIsolated :
    (0 : Nat) ≠ 1 ∧ stepOfCore 1 [State.reset, started [99]] = .next [State.reset, stepped (started [99])] :=
  ⟨by decide, rfl⟩

/-- The inputs of a cycle in which no pulse is raised. -/
def quiet : Inputs := ⟨false, false, 0, false, false, 0, 0⟩

/-- Load of a program that fills the memory, its words written in falling order; one pulse each of start and rst; a
busy core; the last address of a memory. -/
theorem witness_SignalsRealiseLoadAndInvoke :
    let c : Clocked := ⟨{ State.reset with memWords := some 2 }, false, 3⟩
    let writes := [{ quiet with ldWe := true, ldAddr := 1, ldData := -1 }, { quiet with ldWe := true, ldData := 99 }]
    c.core.busy = false ∧ loadable c.core.memWords (([99, -1] : List Word).map BitVec.toInt) = true ∧
      Raises { quiet with ldClear := true } false false true false ∧
      (∀ x ∈ writes, Raises x false false false true ∧ ([99, -1] : List Word)[x.ldAddr.toNat]? = some x.ldData) ∧
      (∀ a < 2, ∃ x ∈ writes, x.ldAddr.toNat = a) ∧
      Raises { quiet with start := true } false true false false ∧ Raises { quiet with rst := true } true false false false ∧
      (stepped (started [99])).halted = true ∧ (stepped (started [98])).faulted = true ∧
      (started [99]).busy = true ∧ quiet.rst = false := by
  unfold Raises; decide

theorem witness_SignalsRealiseLoadAndInvoke_inspection :
    Accessible { edge with busy := false } ((9 : BitVec 64).toNat) ∧ { edge with busy := false }.busy = false :=
  ⟨edge_accessible (by decide) (by decide), rfl⟩

/-- A run that ends well, and one that ends in a fault. -/
theorem witness_RunsEnd :
    (∃ t, EndsWell [104, 5, 99] State.reset [.produced 5] t) ∧ ∃ t, IsRun [98] State.reset [] (.fault .unknownOpcode) t :=
  ⟨⟨_, rfl, rfl, .more (v := 0) ⟨rfl, 1, rfl⟩ (.more (v := 0) ⟨rfl, 1, rfl⟩ (.none _)), by decide, rfl⟩,
    ⟨_, rfl, rfl, .more (v := 0) ⟨rfl, 1, rfl⟩ (.none _), by decide, rfl⟩⟩

/-- The ends of the Word range, a range of one, and a program one word too long. -/
theorem witness_NetworkPhasesAndLoads :
    BitVec.toInt (-9223372036854775808 : Word) ≤ BitVec.toInt (9223372036854775807 : Word) ∧
    BitVec.toInt (9223372036854775807 : Word) ≤ BitVec.toInt (9223372036854775807 : Word) ∧
    0 < (networkPhases 9223372036854775807 9223372036854775807).length ∧
    loadable (some 2) [1, 2, 3] = false := by decide

end Sys2Proof.Tests
end

section
/-! PROOFS. What `IP` does during an instruction (10_state R33, R34). -/

namespace Sys2Proof.Machine

/-- Fault entry on the same state is a precise fault (60_exceptions R217). -/
theorem Faulted.faultsWith {s t : State} {o : Host.Outcome State Fault Refusal} (hf : Faulted s t) (h : o = .next t) :
    ∃ k, FaultsWith s o k := by
  obtain ⟨k, n, -, hg, rfl⟩ := hf
  exact ⟨k, _, h, hg.1, rfl⟩

theorem Stored.ip_toInt {s t : State} (h : Stored s t) : t.ip.toInt = s.ip.toInt + 4 := by
  obtain ⟨_, _, next, _, -, -, -, hnext, rfl⟩ := h
  exact hnext

/-- An instruction that completes and is no jump advances `IP` by its length, or is an input without a value. -/
theorem Completed.ip {i : Instr} {s t : State} (h : Completed i s t) (hjt : i.opcode ≠ .jt) (hjf : i.opcode ≠ .jf) :
    (∃ dst, i = .inp dst ∧ s.inValid = false ∧ t.ip = s.ip) ∨ t.ip.toInt = s.ip.toInt + i.length := by
  cases i with
  | add | mul | lt | eq => exact .inr (Stored.ip_toInt h)
  | inp dst =>
    obtain ⟨hv, rfl⟩ | ⟨_, next, _, -, -, -, -, hnext, rfl⟩ := h
    · exact .inl ⟨dst, rfl, hv, rfl⟩
    · exact .inr hnext
  | out => obtain ⟨_, next, _, -, -, hnext, rfl⟩ := h; exact .inr hnext
  | jt => exact absurd rfl hjt
  | jf => exact absurd rfl hjf
  | arb => obtain ⟨_, _, next, _, -, -, -, hnext, rfl⟩ := h; exact .inr hnext
  | halt => obtain ⟨next, hnext, rfl⟩ := h; exact .inr hnext

/-- A jump faults, or is not taken and advances `IP` by 3, or is taken and `IP` is its second operand: what `Jumped`
leaves open (42_jump R150, R151). -/
theorem complete_jumpWhen_ip {cond : Word → Bool} {a b : Param} {s t : State}
    (h : complete (jumpWhen cond a b s) = .next t) :
    Faulted s t ∨ t.ip.toInt = s.ip.toInt + 3 ∨ ∃ x, cond x = true ∧ ReadsAs a s x ∧ ReadsAs b s t.ip := by
  rcases jumpWhen_cases cond a b s with ⟨k, n, hk, hg, he⟩ | ⟨x, y, next, n, hx, hy, -, hcond, he⟩
  · rw [he] at h; cases h
    exact .inl ⟨k, n, hk, hg, rfl⟩
  · rw [he] at h; cases h
    obtain ⟨hc, rfl⟩ | ⟨-, hnext⟩ := hcond
    · exact .inr (.inr ⟨x, hc, hx, hy⟩)
    · exact .inr (.inl hnext)

/-- Settles O27, by the opcode: a jump through everything format F2 can do, every other instruction through what it
leaves where it completes. -/
theorem instructionPointerMoves : Obligations.InstructionPointerMoves := by
  intro i s t h
  cases i with
  | jt a b =>
    obtain hf | hnext | ⟨x, hc, hx, hy⟩ := complete_jumpWhen_ip h
    · exact .inl (hf.faultsWith h)
    · exact .inr (.inr (.inl hnext))
    · have hx0 : x.toInt ≠ 0 := by simpa [← BitVec.toInt_inj] using hc
      exact .inr (.inr (.inr ⟨a, b, x, .inl ⟨rfl, hx0⟩, hx, hy⟩))
  | jf a b =>
    obtain hf | hnext | ⟨x, hc, hx, hy⟩ := complete_jumpWhen_ip h
    · exact .inl (hf.faultsWith h)
    · exact .inr (.inr (.inl hnext))
    · have hx0 : x.toInt = 0 := by simpa [← BitVec.toInt_inj] using hc
      exact .inr (.inr (.inr ⟨a, b, x, .inr ⟨rfl, hx0⟩, hx, hy⟩))
  | _ =>
    obtain hf | hc := exec_next h
    · exact .inl (hf.faultsWith h)
    · obtain hneed | hnext := hc.ip nofun nofun
      · exact .inr (.inl hneed)
      · exact .inr (.inr (.inl hnext))

end Sys2Proof.Machine
end

section
/-! PROOFS. Memory (20_memory): the access primitives, auto-extension, Load, and what no step can observe. -/

namespace Sys2Proof.Machine

/-! ## Access, extension and Load -/

/-- At or beyond every listed cell memory reads 0 (20_memory R61). -/
theorem readCell_of_cellsBelow {m : Memory} {n k : Nat} (h : cellsBelow m n = true) (hk : n ≤ k) :
    readCell m k = 0 := by
  rw [cellsBelow_iff] at h
  induction m with
  | nil => rfl
  | cons c m ih =>
    have hc : c.1 < n := h c (List.mem_cons_self ..)
    rw [readCell, if_neg (by omega), if_neg (by omega)]
    exact ih fun d hd => h d (List.mem_cons_of_mem _ hd)

/-- Settles O18, by whether the address faults. -/
theorem memoryAccess : Obligations.MemoryAccess := by
  intro a v s hwf
  refine ⟨fun hneg => ?_, fun h0 c hc hle => ?_, fun ha => ⟨?_, ?_⟩⟩
  · have hf : AddressFaults s a .invalidAddress := .inl ⟨hneg, rfl⟩
    exact ⟨memRead_raise hf, memWrite_raise v hf⟩
  · have hf : AddressFaults s a .outOfStorage := .inr ⟨h0, ⟨c, hc, hle⟩, rfl⟩
    exact ⟨memRead_raise hf, memWrite_raise v hf⟩
  · rw [memRead_ok ha, extend_eq_max]; rfl
  · refine ⟨_, memWrite_ok v ha, by rw [extend_eq_max]; rfl, writeCell_wf _ v hwf, ?_, fun k hk => ?_⟩
    · exact (readCell_writeCell hwf _ _ v).trans (if_pos rfl)
    · exact (readCell_writeCell hwf _ _ v).trans (if_neg hk)

/-- An access at or beyond `MLEN` sets `MLEN` to the address plus one (20_memory R65). -/
theorem extend_mlen_of_le {s : State} {a : Nat} (h : s.mlen ≤ a) : (extend a s).mlen = a + 1 := if_pos h

theorem Effect.apply_mlen (e : Effect) (n : Nat) (s : State) : (e.apply n s).mlen = n := by
  cases e <;> rfl

/-- Only a Load or a Reset can shorten the memory (20_memory R65). -/
theorem step_mlen_le {s t : State} (h : step s = .next t) (hl : ¬ ServesLoadOrReset s) : s.mlen ≤ t.mlen := by
  obtain ⟨hserve, -⟩ | ⟨v, -, -, -, rfl⟩ | ⟨r, rfl⟩ | ⟨-, rfl⟩ | ⟨-, -, e, n, hgrows, -, -, rfl⟩ := step_effect_cases h
  · exact absurd hserve hl
  · exact (takeMove_mlen s).ge
  · exact (takeMove_mlen s).ge
  · exact (takeMove_mlen s).ge
  · rw [Effect.apply_mlen, ← takeMove_mlen s]
    exact hgrows.1

/-- Settles O19: no listed cell lies at or beyond the old `MLEN`, and a write lists one at its own address only. -/
theorem autoExtension : Obligations.AutoExtension := by
  refine ⟨fun a v s ha hle => ?_, fun s t h hl => step_mlen_le h hl⟩
  have hmlen : (extend a.toNat s).mlen = a.toNat + 1 := extend_mlen_of_le (by omega)
  refine ⟨⟨_, _, memRead_ok ha, hmlen, fun hb k hk => readCell_of_cellsBelow hb hk⟩,
    _, memWrite_ok v ha, hmlen, fun hwf hb k hk hne => ?_⟩
  calc readCell (writeCell s.mem a.toNat v) k
    _ = readCell s.mem k := (readCell_writeCell hwf _ _ v).trans (if_neg hne)
    _ = 0 := readCell_of_cellsBelow hb hk

/-- Settles O20, by what a memory of consecutive cells reads. -/
theorem loadPlacesTheProgram : Obligations.LoadPlacesTheProgram := by
  intro ws s
  have hread (a : Nat) : readCell (loaded ws s).mem a = ws.getD a 0 := by simp [readCell_cellsFrom]
  refine ⟨fun a h => ?_, fun a h => ?_, rfl⟩
  · rw [hread, List.getD_eq_getElem _ _ h]
  · rw [hread, List.getD_eq_default _ _ h]

/-! ## What no step can observe

Each operation is compared on a state and on the state with the unobservable blotted out. -/

theorem step_served {s : State} {op : HostOp} (ho : servedOp s = some op) :
    step s = .next (hostIssue op (takeMove s)) := by
  simp [step, stepSystem, ho]

theorem step_idle {s : State} (ho : servedOp s = none) (hb : s.busy = false) : step s = .next (takeMove s) := by
  simp [step, stepSystem, ho, stepCore, hb]

@[simp] theorem hideUnobservable_halted (s : State) : (hideUnobservable s).halted = s.halted := rfl
@[simp] theorem hideUnobservable_faulted (s : State) : (hideUnobservable s).faulted = s.faulted := rfl
@[simp] theorem hideUnobservable_faultKind (s : State) : (hideUnobservable s).faultKind = s.faultKind := rfl
@[simp] theorem hideUnobservable_busy (s : State) : (hideUnobservable s).busy = s.busy := rfl
@[simp] theorem hideUnobservable_mem (s : State) : (hideUnobservable s).mem = s.mem := rfl
@[simp] theorem hideUnobservable_memWords (s : State) : (hideUnobservable s).memWords = s.memWords := rfl

@[simp] theorem hideUnobservable_hideUnobservable (s : State) :
    hideUnobservable (hideUnobservable s) = hideUnobservable s := by
  simp only [hideUnobservable]; split <;> rfl

@[simp] theorem hideUnobservable_reply (r : HostReply) (s : State) :
    hideUnobservable (reply r s) = reply r (hideUnobservable s) := rfl

@[simp] theorem hideUnobservable_refuse (s : State) : hideUnobservable (refuse s) = refuse (hideUnobservable s) := rfl

@[simp] theorem loaded_hideUnobservable (ws : List Word) (s : State) :
    loaded ws (hideUnobservable s) = loaded ws s := rfl

@[simp] theorem inspectRegister_hideUnobservable (r : Nat) (s : State) :
    inspectRegister r (hideUnobservable s) = inspectRegister r s := rfl

@[simp] theorem takeMove_hideUnobservable (s : State) :
    takeMove (hideUnobservable s) = hideUnobservable (takeMove s) := by
  have hmoves : (hideUnobservable s).hostMoves = s.hostMoves := rfl
  unfold takeMove
  rw [hmoves]
  cases s.hostMoves with
  | nil => rfl
  | cons m rest =>
    cases m with
    | pause | issue => rfl
    | onIdle => cases hb : s.busy <;> simp [hideUnobservable, hb]

/-- An instruction reads nothing of the unobservable. -/
theorem agree_hideUnobservable (s : State) : Agree s (hideUnobservable s) :=
  ⟨rfl, rfl, rfl, rfl, rfl, fun hv => (if_pos hv).symm⟩

@[simp] theorem hostLoad_hideUnobservable (p : List Int) (s : State) :
    hideUnobservable (hostLoad p (hideUnobservable s)) = hideUnobservable (hostLoad p s) := by
  cases hl : loadable s.memWords p <;> simp [hostLoad, hl]

/-- An Invoke that starts an invocation writes the latch, so no earlier `IN_DATA` is left (60_exceptions R202). -/
@[simp] theorem hostInvoke_hideUnobservable (v : Word) (s : State) :
    hideUnobservable (hostInvoke v (hideUnobservable s)) = hideUnobservable (hostInvoke v s) := by
  cases hh : s.halted with
  | true => simp [hostInvoke, hh]
  | false =>
    cases hf : s.faulted with
    | true => simp [hostInvoke, hh, hf]
    | false => simp [hostInvoke, hh, hf, hideUnobservable]

@[simp] theorem hostInspect_hideUnobservable (r : Nat) (s : State) :
    hideUnobservable (hostInspect r (hideUnobservable s)) = hideUnobservable (hostInspect r s) := by
  cases hr : inspectRegister r s <;> simp [hostInspect, hr]

@[simp] theorem hostInspectMem_hideUnobservable (a : Int) (s : State) :
    hideUnobservable (hostInspectMem a (hideUnobservable s)) = hideUnobservable (hostInspectMem a s) := by
  cases hf : addressFault s.memWords a <;> simp [hostInspectMem, hf]

/-- A host operation leaves the same but for the unobservable: the tests it makes and the values it returns are the
same (20_memory R66). -/
theorem hostIssue_hideUnobservable (op : HostOp) (s : State) :
    hideUnobservable (hostIssue op (hideUnobservable s)) = hideUnobservable (hostIssue op s) := by
  cases op with
  | reset => rfl
  | load | invoke | inspect | inspectMem => cases hb : s.busy <;> simp [hostIssue, hb]

/-- An effect leaves the same but for the unobservable: only an input reads the latch, and then it is valid
(10_state R43). -/
theorem Effect.apply_hideUnobservable {e : Effect} {n m : Nat} {s : State} (h : e.Sound n s) :
    hideUnobservable (e.apply m (hideUnobservable s)) = hideUnobservable (e.apply n s) := by
  cases e with
  | take d next =>
    obtain ⟨-, -, hv⟩ := h
    simp [Effect.apply, hideUnobservable, hv]
  | fault | needInput | produce | halt => rfl
  | store | jump | adjust => cases hv : s.inValid <;> simp [Effect.apply, hideUnobservable, hv]

theorem stepInstr_hideUnobservable (s : State) :
    ∃ t u, stepInstr s = .next t ∧ stepInstr (hideUnobservable s) = .next u ∧
      hideUnobservable u = hideUnobservable t := by
  obtain ⟨e, he, -⟩ := stepInstr_effect s
  obtain ⟨n, -, hsound, ht⟩ := he s (Agree.refl s)
  obtain ⟨m, -, -, hu⟩ := he (hideUnobservable s) (agree_hideUnobservable s)
  exact ⟨_, _, ht, hu, Effect.apply_hideUnobservable hsound⟩

/-- A step of a state and a step of it with the unobservable blotted out leave the same but for the unobservable. -/
theorem step_hideUnobservable (s : State) :
    ∃ t u, step s = .next t ∧ step (hideUnobservable s) = .next u ∧ hideUnobservable u = hideUnobservable t := by
  cases ho : servedOp s with
  | some op =>
    refine ⟨_, _, step_served ho, step_served (s := hideUnobservable s) ho, ?_⟩
    rw [takeMove_hideUnobservable, hostIssue_hideUnobservable]
  | none =>
    cases hb : s.busy with
    | true =>
      rw [step_busy ho hb, step_busy (s := hideUnobservable s) ho hb, takeMove_hideUnobservable]
      exact stepInstr_hideUnobservable (takeMove s)
    | false => exact ⟨_, _, step_idle ho hb, step_idle (s := hideUnobservable s) ho hb, by simp⟩

/-- Settles O21: each of the two steps leaves what the step of their one common blotted state leaves. -/
theorem hiddenStateIsUnobservable : Obligations.HiddenStateIsUnobservable := by
  intro s t h
  obtain ⟨s', u, hs, hu, hsu⟩ := step_hideUnobservable s
  obtain ⟨t', v, ht, hv, htv⟩ := step_hideUnobservable t
  rw [h, hv] at hu
  cases hu
  exact ⟨s', t', hs, ht, hsu.symm.trans htv⟩

end Sys2Proof.Machine
end

section
/-! PROOFS. The decoder (30_encoding): what it answers on every word, ignored mode digits, and lengths. -/

namespace Sys2Proof

/-! ## The decoder on every word

A word that is not negative is spoken of through the natural number it stands for, as its digits are. -/

/-- Only the digits 0, 1 and 2 stand for a mode (30_encoding R93, R94). -/
theorem ofDigit_le {d : Nat} {m : Mode} (h : Mode.ofDigit? d = some m) : d ≤ 2 := by
  by_contra hgt
  rw [ofDigit_of_gt (by omega)] at h
  cases h

theorem ofCode_none_of_not_mem {d : Nat} (h : (d : Int) ∉ opcodeValues) : Opcode.ofCode? d = none :=
  Option.eq_none_iff_forall_ne_some.mpr fun op hop => h (mem_opcodeValues.mpr ⟨op, hop⟩)

theorem badModeDigit_iff {w : Word} {n : Nat} (hw : w.toInt = n) :
    BadModeDigit w ↔ 2 < digit n 2 ∨ 2 < digit n 3 ∨ 2 < digit n 4 ∨ n / 100000 ≠ 0 := by
  unfold BadModeDigit digit
  omega

theorem decodeHeader_of_neg {w : Word} (h : w.toInt < 0) : decodeHeader w = .error .unknownOpcode :=
  if_pos h

theorem decodeHeader_of_no_opcode {w : Word} {n : Nat} (hw : w.toInt = n) (hop : Opcode.ofCode? (n % 100) = none) :
    decodeHeader w = .error .unknownOpcode := by
  simp [decodeHeader, hw, hop]

/-- With an opcode, a bad mode digit is `InvalidMode`: three digits that all stand for modes are at most 2
(30_encoding R94, R105). -/
theorem decodeHeader_of_badModeDigit {w : Word} {n : Nat} {op : Opcode} (hw : w.toInt = n)
    (hop : Opcode.ofCode? (n % 100) = some op) (hbad : BadModeDigit w) : decodeHeader w = .error .invalidMode := by
  rw [badModeDigit_iff hw] at hbad
  simp only [decodeHeader, hw, Int.toNat_natCast, hop]
  rw [if_neg (by omega)]
  split
  · rfl
  · split
    · next h1 h2 h3 =>
      have hle1 := ofDigit_le h1
      have hle2 := ofDigit_le h2
      have hle3 := ofDigit_le h3
      omega
    · rfl

/-- With an opcode and no bad mode digit, a word decodes to its digits (30_encoding R91, R105). -/
theorem decodeHeader_of_goodDigits {w : Word} {n : Nat} {op : Opcode} (hw : w.toInt = n)
    (hop : Opcode.ofCode? (n % 100) = some op) (hgood : ¬ BadModeDigit w) :
    ∃ h, decodeHeader w = .ok h ∧ h.op.toCode = n % 100 ∧ h.m1.toDigit = digit n 2 ∧ h.m2.toDigit = digit n 3 ∧
      h.m3.toDigit = digit n 4 := by
  rw [badModeDigit_iff hw] at hgood
  obtain ⟨m1, h1⟩ := ofDigit_of_le (d := digit n 2) (by omega)
  obtain ⟨m2, h2⟩ := ofDigit_of_le (d := digit n 3) (by omega)
  obtain ⟨m3, h3⟩ := ofDigit_of_le (d := digit n 4) (by omega)
  have hhigh : n / 100000 = 0 := by omega
  refine ⟨⟨op, m1, m2, m3⟩, ?_, (ofCode_some hop).symm, (ofDigit_some h1).symm, (ofDigit_some h2).symm,
    (ofDigit_some h3).symm⟩
  simp [decodeHeader, hw, hop, hhigh, h1, h2, h3]

/-- Settles O5, by the order of the decoder's checks: the sign, the opcode, the mode digits. -/
theorem decoderOnEveryWord : Obligations.DecoderOnEveryWord := by
  intro w
  refine ⟨decodeHeader_of_neg, fun h0 hcode => ?_, fun h0 hcode hbad => ?_, fun h0 hcode hgood => ?_⟩
  all_goals
    obtain ⟨n, hw⟩ := Int.eq_ofNat_of_zero_le h0
    rw [hw, show (n : Int) % 100 = (n % 100 : Nat) from rfl] at hcode
  · exact decodeHeader_of_no_opcode hw (ofCode_none_of_not_mem hcode)
  · obtain ⟨op, hop⟩ := mem_opcodeValues.mp hcode
    exact decodeHeader_of_badModeDigit hw hop hbad
  · obtain ⟨op, hop⟩ := mem_opcodeValues.mp hcode
    obtain ⟨h, hok, hdigits⟩ := decodeHeader_of_goodDigits hw hop hgood
    refine ⟨h, hok, ?_⟩
    rw [hw]
    exact_mod_cast hdigits

/-! ## Ignored digits and lengths -/

/-- An instruction depends on the modes of the parameters its opcode has, and on no other mode
(30_encoding R100). -/
theorem toInstr_congr {h k : Header} (hop : h.op = k.op) (h1 : 1 ≤ h.op.params → h.m1 = k.m1)
    (h2 : 2 ≤ h.op.params → h.m2 = k.m2) (h3 : 3 ≤ h.op.params → h.m3 = k.m3) (ws : List Word) :
    h.toInstr ws = k.toInstr ws := by
  obtain ⟨op, m1, m2, m3⟩ := k
  cases op <;> simp_all [Opcode.params, Header.toInstr]

/-- Words with the same opcode and the same modes of the parameters it has decode alike, whatever follows them. -/
theorem decode_congr {v w : Word} {h k : Header} (hv : decodeHeader v = .ok h) (hw : decodeHeader w = .ok k)
    (hop : h.op = k.op) (h1 : 1 ≤ h.op.params → h.m1 = k.m1) (h2 : 2 ≤ h.op.params → h.m2 = k.m2)
    (h3 : 3 ≤ h.op.params → h.m3 = k.m3) (ws : List Word) : decode (v :: ws) = decode (w :: ws) := by
  simp only [decode, hv, hw, hop, toInstr_congr hop h1 h2 h3]

/-- Settles O4: a mode is replaced only where the opcode has no such parameter. -/
theorem absentParameterDigitsIgnored : Obligations.AbsentParameterDigitsIgnored := fun op m1 m2 m3 =>
  decode_congr (decodeHeader_canonicalWord op m1 m2 m3) (decodeHeader_canonicalWord ..) rfl
    (fun hp => (if_pos hp).symm) (fun hp => (if_pos hp).symm) (fun hp => (if_pos hp).symm)

/-- An accepted word's opcode is its low two digits: the other words are the ones the decoder refuses
(30_encoding R91, R105). -/
theorem decodeHeader_ok_toCode {w : Word} {h : Header} (hw : decodeHeader w = .ok h) :
    (h.op.toCode : Int) = w.toInt % 100 := by
  obtain ⟨hneg, hcode, hmode, hgood⟩ := decoderOnEveryWord w
  rw [hw] at hneg hcode hmode hgood
  have h0 : 0 ≤ w.toInt := not_lt.mp fun hlt => nomatch hneg hlt
  have hop : w.toInt % 100 ∈ opcodeValues := not_not.mp fun hop => nomatch hcode h0 hop
  obtain ⟨k, hk, hdigits, -⟩ := hgood h0 hop fun hbad => nomatch hmode h0 hop hbad
  cases hk
  exact hdigits

/-- The length table, by opcode value (30_encoding R97). -/
theorem toCode_length_mem (op : Opcode) :
    ((op.toCode : Int), op.length) ∈
      [((1 : Int), 4), (2, 4), (3, 2), (4, 2), (5, 3), (6, 3), (7, 4), (8, 4), (9, 2), (99, 1)] := by
  cases op <;> decide

/-- Settles O6: decoding takes the instruction word and the parameters its opcode has, and the opcode's length is
one more than their number. -/
theorem lengthByOpcode : Obligations.LengthByOpcode := by
  intro w ws rest i h
  obtain ⟨hd, hw, hlen, rfl, rfl⟩ := decode_ok h
  rw [toInstr_length, ← decodeHeader_ok_toCode hw]
  refine ⟨toCode_length_mem hd.op, ?_, rfl⟩
  rw [List.length_drop, Opcode.length]
  omega

end Sys2Proof
end

section
/-! PROOFS. Arithmetic (40_arithmetic): add and multiply, through what format F3 stores and the faults it raises. -/

namespace Sys2Proof.Machine

/-- A raised fault is a precise one, where nothing but `MLEN` has changed by then (60_exceptions R217, R218). -/
theorem faultsWith_complete_raise {s : State} {k : FaultKind} {n : Nat} (g : Grows s n) :
    FaultsWith s (complete (.raise k (s.withMlen n))) k :=
  ⟨_, rfl, g.1, rfl⟩

/-- An instruction of format F3 whose checks pass stores its exact result (30_encoding R112, R114). -/
theorem computeAndStore_storesWord {f : Word → Word → Int} {a b dst : Param} {s : State} {x y : Word} {d : Int}
    (hx : ReadsAs a s x) (hy : ReadsAs b s y) (hd : effectiveAddress dst s = some d) (ha : Accessible s d)
    (hwf : s.mem.wf = true) (hr : fits64 (f x y) = true) (hi : fits64 (s.ip.toInt + 4) = true) :
    ∃ t, complete (computeAndStore f a b dst s) = .next t ∧ StoresWord s t d (f x y) 4 := by
  obtain ⟨_, _, -, hstore⟩ := computeAndStore_of_operands (f := f) hx hy hd ha
  obtain ⟨n, g, hdn, he⟩ := hstore hr hi
  refine ⟨_, by rw [he]; rfl, ?_, fun k hk => ?_, toInt_ofInt_of_fits hi, g.1, hdn, rfl⟩
  · rw [readCell_writeCell hwf, if_pos rfl, toInt_ofInt_of_fits hr]
  · rw [readCell_writeCell hwf, if_neg hk]

/-- An instruction whose meaning is format F3 faults as the format does, phase by phase (60_exceptions R220). -/
theorem f3Faults_of_exec {make : Param → Param → Param → Instr} {f : Word → Word → Int}
    (hexec : ∀ a b dst s, exec (make a b dst) s = complete (computeAndStore f a b dst s)) : F3Faults make f := by
  intro a b dst s
  rw [hexec]
  obtain ⟨hmode, hphases⟩ := computeAndStore_raise (f := f) (a := a) (b := b) (dst := dst) (s := s)
  refine ⟨fun hm => ?_, fun hm => ?_⟩
  · rw [hmode hm]
    exact faultsWith_complete_raise (Grows.refl s)
  obtain ⟨hfst, hrest⟩ := hphases hm
  refine ⟨fun k hk => ?_, fun x hx => ?_⟩
  · rw [hfst k hk]
    exact faultsWith_complete_raise (Grows.refl s)
  obtain ⟨hsnd, htarget⟩ := hrest x hx
  refine ⟨fun k hk => ?_, fun y hy => ⟨fun k hk => ?_, fun d hd ha hbad => ?_⟩⟩
  · obtain ⟨n, g, he⟩ := hsnd k hk
    rw [he]
    exact faultsWith_complete_raise g
  · obtain ⟨n, g, he⟩ := htarget y hy k hk
    rw [he]
    exact faultsWith_complete_raise g
  · obtain ⟨n, g, hoverflow, -⟩ := computeAndStore_of_operands (f := f) hx hy hd ha
    rw [hoverflow hbad]
    exact faultsWith_complete_raise g

/-- Every opcode value rejects a bad mode digit: a clause of the decoder's rule on every word (30_encoding R94). -/
theorem invalidModeFor_of_mem {code : Int} (h : code ∈ opcodeValues) : InvalidModeFor code := by
  intro w h0 hcode hbad
  obtain ⟨-, -, hmode, -⟩ := decoderOnEveryWord w
  exact hmode h0 (hcode ▸ h) hbad

/-- Settles O7: add is format F3 with the exact sum. -/
theorem addRule : Obligations.AddRule :=
  ⟨fun _ _ _ _ _ _ _ hx hy hd ha hwf hr hi => computeAndStore_storesWord hx hy hd ha hwf hr hi,
    f3Faults_of_exec fun _ _ _ _ => rfl, fun _ _ _ => ⟨rfl, rfl⟩, invalidModeFor_of_mem (by decide)⟩

/-- Settles O8: multiply is format F3 with the exact product. -/
theorem multiplyRule : Obligations.MultiplyRule :=
  ⟨fun _ _ _ _ _ _ _ hx hy hd ha hwf hr hi => computeAndStore_storesWord hx hy hd ha hwf hr hi,
    f3Faults_of_exec fun _ _ _ _ => rfl, fun _ _ _ => ⟨rfl, rfl⟩, invalidModeFor_of_mem (by decide)⟩

end Sys2Proof.Machine
end

section
/-! PROOFS. Input and output (41_io): where each completes, where input suspends, and the faults they raise. -/

namespace Sys2Proof.Machine

/-! ## Input -/

/-- Input with a value in the latch stores the value and consumes it (41_io R140). -/
theorem exec_inp_storesWord {dst : Param} {s : State} {d : Int} (hd : effectiveAddress dst s = some d)
    (ha : Accessible s d) (hwf : s.mem.wf = true) (hv : s.inValid = true) (hi : fits64 (s.ip.toInt + 2) = true) :
    ∃ t, exec (.inp dst) s = .next t ∧ StoresWord { s with inValid := false } t d s.inData.toInt 2 := by
  have hc := checkTarget_ok s (effectiveAddress_ne_immediate hd)
  have hnext := nextIp_ok (len := 2) hi
  have hwrite := memWrite_ok s.inData (s := { s with inValid := false }) ha
  obtain ⟨n, he, g, hdn⟩ := extend_grows (s := { s with inValid := false }) ha
  refine ⟨_, by simp only [exec, execInp, hc, writeAddress_ok hd ha, hv, hnext, hwrite, he, Res.bind_ok, if_true]; rfl,
    ?_, fun k hk => ?_, toInt_ofInt_of_fits hi, g.1, hdn, rfl⟩
  · exact congrArg BitVec.toInt ((readCell_writeCell hwf ..).trans (if_pos rfl))
  · exact (readCell_writeCell hwf ..).trans (if_neg hk)

/-- Input with an empty latch suspends, whether or not `IP + 2` is a Word (41_io R140, 60_exceptions R220 item 8). -/
theorem exec_inp_needInput {dst : Param} {s : State} {d : Int} (hd : effectiveAddress dst s = some d)
    (ha : Accessible s d) (hv : s.inValid = false) : exec (.inp dst) s = .next (stop .needInput s) := by
  have hc := checkTarget_ok s (effectiveAddress_ne_immediate hd)
  simp [exec, execInp, hc, writeAddress_ok hd ha, hv, complete]

/-- The next invocation finds a Running core as the stop left it, with its own value in the latch
(60_exceptions R202, R205). -/
theorem hostIssue_invoke_stop {o : InvokeOutcome} {s : State} (v : Word) (hh : s.halted = false)
    (hf : s.faulted = false) :
    hostIssue (.invoke v) (stop o s) = { stop o s with inData := v, inValid := true, busy := true } := by
  simp [hostIssue, hostInvoke, hh, hf]

/-- An Immediate target faults whatever the latch holds (41_io R140, 30_encoding R112 phase 4). -/
theorem exec_inp_immediate {dst : Param} {s : State} (hm : dst.mode = .immediate) :
    FaultsWith s (exec (.inp dst) s) .invalidWriteTarget := by
  have he : exec (.inp dst) s = complete (.raise .invalidWriteTarget s) := by
    simp [exec, execInp, checkTarget_raise s hm]
  exact he ▸ faultsWith_complete_raise (Grows.refl s)

/-- A target outside the memory faults whatever the latch holds (41_io R140). -/
theorem exec_inp_targetFault {dst : Param} {s : State} {k : FaultKind} (hk : OperandFaults dst s k) :
    FaultsWith s (exec (.inp dst) s) k := by
  have hm : dst.mode ≠ .immediate := hk.elim fun _ hd => effectiveAddress_ne_immediate hd.1
  have he : exec (.inp dst) s = complete (.raise k s) := by
    simp [exec, execInp, checkTarget_ok s hm, writeAddress_raise hk]
  exact he ▸ faultsWith_complete_raise (Grows.refl s)

/-- With a value to store, `IP + 2` is checked, and the fault leaves the target unwritten (60_exceptions R220). -/
theorem exec_inp_overflow {dst : Param} {s : State} {d : Int} (hd : effectiveAddress dst s = some d)
    (ha : Accessible s d) (hv : s.inValid = true) (hi : fits64 (s.ip.toInt + 2) = false) :
    FaultsWith s (exec (.inp dst) s) .arithmeticOverflow := by
  have hc := checkTarget_ok s (effectiveAddress_ne_immediate hd)
  have hnext := nextIp_raise (len := 2) hi
  have he : exec (.inp dst) s = complete (.raise .arithmeticOverflow s) := by
    simp [exec, execInp, hc, writeAddress_ok hd ha, hv, hnext]
  exact he ▸ faultsWith_complete_raise (Grows.refl s)

/-- Settles O11: the target is checked first; then the latch decides between the store and the suspension. -/
theorem inputRule : Obligations.InputRule := by
  refine ⟨fun _ _ _ hd ha hwf hv hi => exec_inp_storesWord hd ha hwf hv hi, fun dst s d hd ha hv => ?_,
    fun _ _ => ⟨exec_inp_immediate, fun _ => exec_inp_targetFault, fun _ => exec_inp_overflow⟩,
    fun _ => ⟨rfl, rfl⟩, invalidModeFor_of_mem (by decide)⟩
  have hstop : stop .needInput s =
      { s with busy := false, hostInbox := .outcome .needInput :: s.hostInbox } := by rw [stop, ← hv]
  exact ⟨_, exec_inp_needInput hd ha hv, hstop, fun v => hostIssue_invoke_stop v⟩

/-! ## Output -/

/-- Output of a readable operand stops with `Produced` (41_io R141). -/
theorem exec_out_produced {a : Param} {s : State} {x : Word} (hx : ReadsAs a s x)
    (hi : fits64 (s.ip.toInt + 2) = true) :
    ∃ n, Grows s n ∧ exec (.out a) s =
      .next (stop (.produced x) { s with mlen := n, out := x, ip := BitVec.ofInt 64 (s.ip.toInt + 2) }) := by
  obtain ⟨n, g, hread⟩ := readOperand_ok hx
  have hnext := nextIp_ok (len := 2) (s := s.withMlen n) hi
  exact ⟨n, g, by simp only [exec, execOut, hread, hnext, Res.bind_ok]; rfl⟩

/-- An operand outside the memory faults. -/
theorem exec_out_operandFault {a : Param} {s : State} {k : FaultKind} (hk : OperandFaults a s k) :
    FaultsWith s (exec (.out a) s) k := by
  have he : exec (.out a) s = complete (.raise k s) := by simp [exec, execOut, readOperand_raise hk]
  exact he ▸ faultsWith_complete_raise (Grows.refl s)

/-- Output checks `IP + 2` before it emits: the fault leaves `OUT` as it was (41_io R141). -/
theorem exec_out_overflow {a : Param} {s : State} {x : Word} (hx : ReadsAs a s x)
    (hi : fits64 (s.ip.toInt + 2) = false) : FaultsWith s (exec (.out a) s) .arithmeticOverflow := by
  obtain ⟨n, g, hread⟩ := readOperand_ok hx
  have hnext := nextIp_raise (len := 2) (s := s.withMlen n) hi
  have he : exec (.out a) s = complete (.raise .arithmeticOverflow (s.withMlen n)) := by
    simp [exec, execOut, hread, hnext]
  exact he ▸ faultsWith_complete_raise g

/-- Settles O12: the operand is read, then `IP + 2` checked, and only then the value emitted. -/
theorem outputRule : Obligations.OutputRule := by
  refine ⟨fun a s x hx hi => ?_, fun _ _ => ⟨fun _ => exec_out_operandFault, fun _ => exec_out_overflow⟩,
    fun _ => ⟨rfl, rfl⟩, invalidModeFor_of_mem (by decide)⟩
  obtain ⟨n, g, he⟩ := exec_out_produced hx hi
  exact ⟨_, he, toInt_ofInt_of_fits hi, g.1, rfl⟩

end Sys2Proof.Machine
end

section
/-! PROOFS. The two jumps (42_jump): format F2 over what either takes as true, and the fetch at a taken target. -/

namespace Sys2Proof.Machine

/-! ## The conditions -/

theorem bne_zero_iff (x : Word) : (x != 0) = true ↔ x.toInt ≠ 0 := by simp [← BitVec.toInt_inj]

theorem beq_zero_iff (x : Word) : (x == 0) = true ↔ x.toInt = 0 := by simp [← BitVec.toInt_inj]

/-! ## Format F2 -/

/-- A taken jump loads `IP` with its second operand as it is, and changes nothing else but `MLEN` (42_jump R152). -/
theorem complete_jumpWhen_taken {cond : Word → Bool} {a b : Param} {s : State} {x y : Word} (hx : ReadsAs a s x)
    (hy : ReadsAs b s y) (hc : cond x = true) :
    ∃ n, Grows s n ∧ complete (jumpWhen cond a b s) = .next { s with mlen := n, ip := y } := by
  obtain ⟨n, g, htaken, -, -⟩ := jumpWhen_of_operands (cond := cond) hx hy
  exact ⟨n, g, by rw [htaken hc]; rfl⟩

/-- A jump that completes, taken or not (42_jump R150, R151). -/
theorem complete_jumpWhen_completes {cond : Word → Bool} {taken : Word → Prop} [DecidablePred taken]
    (hcond : ∀ x, cond x = true ↔ taken x) {a b : Param} {s : State} {x y : Word} (hx : ReadsAs a s x)
    (hy : ReadsAs b s y) (h : taken x ∨ fits64 (s.ip.toInt + 3) = true) :
    ∃ t, complete (jumpWhen cond a b s) = .next t ∧
      t.ip.toInt = (if taken x then y.toInt else s.ip.toInt + 3) ∧ s.mlen ≤ t.mlen ∧
      t = { s with ip := t.ip, mlen := t.mlen } := by
  by_cases ht : taken x
  · obtain ⟨n, g, he⟩ := complete_jumpWhen_taken hx hy ((hcond x).mpr ht)
    exact ⟨_, he, (if_pos ht).symm, g.1, rfl⟩
  · have hi := h.resolve_left ht
    obtain ⟨n, g, -, hnot, -⟩ := jumpWhen_of_operands (cond := cond) hx hy
    have he := hnot (Bool.eq_false_iff.mpr (mt (hcond x).mp ht)) hi
    exact ⟨_, congrArg complete he, (toInt_ofInt_of_fits hi).trans (if_neg ht).symm, g.1, rfl⟩

/-- An instruction whose meaning is format F2 faults as the format does, operand by operand (60_exceptions R220). -/
theorem f2Faults_of_exec {make : Param → Param → Instr} {cond : Word → Bool} {taken : Word → Prop}
    (hexec : ∀ a b s, exec (make a b) s = complete (jumpWhen cond a b s)) (hcond : ∀ x, cond x = true ↔ taken x) :
    F2Faults make taken := by
  intro a b s
  rw [hexec]
  refine ⟨fun k hk => ?_, fun x hx => ⟨fun k hk => ?_, fun y hy ht hi => ?_⟩⟩
  · have he : jumpWhen cond a b s = .raise k s := by simp [jumpWhen, readOperand_raise hk]
    exact he ▸ faultsWith_complete_raise (Grows.refl s)
  · obtain ⟨n, g, hread⟩ := readOperand_ok hx
    have hraise := readOperand_raise (operandFaults_withMlen (n := n).mpr hk)
    have he : jumpWhen cond a b s = .raise k (s.withMlen n) := by simp [jumpWhen, hread, hraise]
    exact he ▸ faultsWith_complete_raise g
  · obtain ⟨n, g, -, -, hoverflow⟩ := jumpWhen_of_operands (cond := cond) hx hy
    rw [hoverflow (Bool.eq_false_iff.mpr (mt (hcond x).mp ht)) hi]
    exact faultsWith_complete_raise g

/-- Settles O13: jump-if-true is format F2, taken on every word but 0. -/
theorem jumpIfTrueRule : Obligations.JumpIfTrueRule :=
  ⟨fun _ _ _ _ _ => complete_jumpWhen_completes bne_zero_iff, f2Faults_of_exec (fun _ _ _ => rfl) bne_zero_iff,
    fun _ _ => ⟨rfl, rfl⟩, invalidModeFor_of_mem (by decide)⟩

/-- Settles O14: jump-if-false is format F2, taken on 0 alone. -/
theorem jumpIfFalseRule : Obligations.JumpIfFalseRule :=
  ⟨fun _ _ _ _ _ => complete_jumpWhen_completes beq_zero_iff, f2Faults_of_exec (fun _ _ _ => rfl) beq_zero_iff,
    fun _ _ => ⟨rfl, rfl⟩, invalidModeFor_of_mem (by decide)⟩

/-! ## The fetch at a jump's target -/

/-- A fetch that faults, with nothing changed but `MLEN` by then, is a precise fault of the step
(60_exceptions R217). -/
theorem faultsWith_stepInstr {s : State} {k : FaultKind} {n : Nat} (g : Grows s n)
    (h : fetchInstr s = .raise k (s.withMlen n)) : FaultsWith s (stepInstr s) k := by
  have he : stepInstr s = complete (.raise k (s.withMlen n)) := by rw [stepInstr, h]; rfl
  exact he ▸ faultsWith_complete_raise g

/-- Phase 1: with `IP` outside the memory the fetch faults (30_encoding R112). -/
theorem fetchInstr_raise_of_addressFaults {s : State} {k : FaultKind} (h : AddressFaults s s.ip.toInt k) :
    fetchInstr s = .raise k s := by
  rw [fetchInstr, memRead_raise h, Res.bind_raise]

/-- Phases 2 and 3: a word at `IP` that is no instruction word faults as the decoder says (30_encoding R112). -/
theorem fetchInstr_raise_of_decodeHeader {s : State} {k : FaultKind} (ha : Accessible s s.ip.toInt)
    (hk : decodeHeader (readCell s.mem s.ip.toInt.toNat) = .error k) :
    ∃ n, Grows s n ∧ fetchInstr s = .raise k (s.withMlen n) := by
  obtain ⟨n, he, g, -⟩ := extend_grows ha
  exact ⟨n, g, by rw [fetchInstr, memRead_ok ha, Res.bind_ok, hk, he]⟩

/-- The step of a busy core with `IP` negative faults in phase 1 (30_encoding R112, 42_jump R152). -/
theorem faultsWith_step_of_negative_ip {s : State} (ho : servedOp s = none) (hb : s.busy = true)
    (h : s.ip.toInt < 0) : FaultsWith (takeMove s) (step s) .invalidAddress := by
  have hfault : AddressFaults (takeMove s) (takeMove s).ip.toInt .invalidAddress := .inl ⟨by simpa using h, rfl⟩
  rw [step_busy ho hb]
  exact faultsWith_stepInstr (Grows.refl _) (fetchInstr_raise_of_addressFaults hfault)

/-- The step of a busy core whose `IP` is at a word 0 faults in phase 2: 0 is no opcode (30_encoding R112,
42_jump R152). -/
theorem faultsWith_step_of_zero_word {s : State} (ho : servedOp s = none) (hb : s.busy = true)
    (ha : Accessible s s.ip.toInt) (h : readCell s.mem s.ip.toInt.toNat = 0) :
    FaultsWith (takeMove s) (step s) .unknownOpcode := by
  have hacc : Accessible (takeMove s) (takeMove s).ip.toInt := by simpa using (agree_takeMove s).accessible.mp ha
  have hk : decodeHeader (readCell (takeMove s).mem (takeMove s).ip.toInt.toNat) = .error .unknownOpcode := by
    rw [takeMove_mem, takeMove_ip, h]
    rfl
  obtain ⟨n, g, hraise⟩ := fetchInstr_raise_of_decodeHeader hacc hk
  rw [step_busy ho hb]
  exact faultsWith_stepInstr g hraise

/-- A taken jump of either kind loads the target and does nothing else but extend the memory (42_jump R152). -/
theorem exec_jump_taken {a b : Param} {s : State} {x y : Word} {i : Instr} (hx : ReadsAs a s x) (hy : ReadsAs b s y)
    (hi : (i = .jt a b ∧ x.toInt ≠ 0) ∨ (i = .jf a b ∧ x.toInt = 0)) :
    ∃ n, Grows s n ∧ exec i s = .next { s with mlen := n, ip := y } := by
  obtain ⟨rfl, hx0⟩ | ⟨rfl, hx0⟩ := hi
  · exact complete_jumpWhen_taken hx hy ((bne_zero_iff x).mpr hx0)
  · exact complete_jumpWhen_taken hx hy ((beq_zero_iff x).mpr hx0)

/-- Settles O17: the jump loads the target unchecked, and the next fetch faults there in its phase 1 or 2. -/
theorem jumpTargetsAreLoadedExactly : Obligations.JumpTargetsAreLoadedExactly := by
  intro a b s x y hx hy i hi
  obtain ⟨n, -, he⟩ := exec_jump_taken hx hy hi
  exact ⟨_, he, rfl, rfl, rfl, fun hb ho => ⟨faultsWith_step_of_negative_ip ho hb, faultsWith_step_of_zero_word ho hb⟩⟩

end Sys2Proof.Machine
end

section
/-! PROOFS. Comparison (43_compare): less-than and equals, format F3 with a result of 0 or 1, which is always a Word. -/

namespace Sys2Proof.Machine

/-- A comparison's result is 1 where it holds and else 0 (43_compare R160, R161). -/
theorem truthValue_decide (p : Prop) [Decidable p] : truthValue (decide p) = if p then 1 else 0 := by
  simp [truthValue]

/-- A comparison cannot overflow (43_compare R160, R161). -/
theorem fits64_comparison (p : Prop) [Decidable p] : fits64 (if p then 1 else 0) = true :=
  truthValue_decide p ▸ fits64_truthValue (decide p)

/-- Less-than is format F3 with the signed comparison (43_compare R160). -/
theorem exec_lt (a b dst : Param) (s : State) :
    exec (.lt a b dst) s = complete (computeAndStore (fun x y => if x.toInt < y.toInt then 1 else 0) a b dst s) := by
  simp only [exec, execLt, truthValue_decide]

/-- Equals is format F3 with the comparison of whole words (43_compare R161). -/
theorem exec_eq (a b dst : Param) (s : State) :
    exec (.eq a b dst) s = complete (computeAndStore (fun x y => if x.toInt = y.toInt then 1 else 0) a b dst s) := by
  simp only [exec, execEq, truthValue_decide]

/-- Settles O9: less-than is format F3, and its result always fits. -/
theorem lessThanRule : Obligations.LessThanRule :=
  ⟨fun _ _ _ _ _ _ _ hx hy hd ha hwf hi =>
      exec_lt .. ▸ computeAndStore_storesWord hx hy hd ha hwf (fits64_comparison _) hi,
    f3Faults_of_exec exec_lt, fun _ _ _ => ⟨rfl, rfl⟩, invalidModeFor_of_mem (by decide)⟩

/-- Settles O10: equals is format F3, and its result always fits. -/
theorem equalsRule : Obligations.EqualsRule :=
  ⟨fun _ _ _ _ _ _ _ hx hy hd ha hwf hi =>
      exec_eq .. ▸ computeAndStore_storesWord hx hy hd ha hwf (fits64_comparison _) hi,
    f3Faults_of_exec exec_eq, fun _ _ _ => ⟨rfl, rfl⟩, invalidModeFor_of_mem (by decide)⟩

end Sys2Proof.Machine
end

section
/-! PROOFS. System (44_system): where adjust-relative-base and halt complete, the faults they raise, and the invocations
after a halt. -/

namespace Sys2Proof.Machine

/-! ## Adjust-relative-base -/

/-- Where its operand reads as a word and both checks pass, adjust-relative-base moves `RB` and `IP`, and nothing else
changes but `MLEN` (44_system R170). -/
theorem exec_arb_adjusts {a : Param} {s : State} {x : Word} (hx : ReadsAs a s x)
    (hr : fits64 (s.rb.toInt + x.toInt) = true) (hi : fits64 (s.ip.toInt + 2) = true) :
    ∃ n, Grows s n ∧ exec (.arb a) s = .next { s with
      mlen := n, rb := BitVec.ofInt 64 (s.rb.toInt + x.toInt), ip := BitVec.ofInt 64 (s.ip.toInt + 2) } := by
  obtain ⟨n, g, hread⟩ := readOperand_ok hx
  have hsum := narrow_ok (s.withMlen n) hr
  have hnext := nextIp_ok (len := 2) (s := s.withMlen n) hi
  exact ⟨n, g, by simp only [exec, execArb, hread, withMlen_rb, hsum, hnext, Res.bind_ok]; rfl⟩

/-- An operand outside the memory faults. -/
theorem exec_arb_operandFault {a : Param} {s : State} {k : FaultKind} (hk : OperandFaults a s k) :
    FaultsWith s (exec (.arb a) s) k := by
  have he : exec (.arb a) s = complete (.raise k s) := by simp [exec, execArb, readOperand_raise hk]
  exact he ▸ faultsWith_complete_raise (Grows.refl s)

/-- Both checks come before either register is written: whichever fails, `RB` and `IP` stay (44_system R170). -/
theorem exec_arb_overflow {a : Param} {s : State} {x : Word} (hx : ReadsAs a s x)
    (hbad : fits64 (s.rb.toInt + x.toInt) = false ∨ fits64 (s.ip.toInt + 2) = false) :
    FaultsWith s (exec (.arb a) s) .arithmeticOverflow := by
  obtain ⟨n, g, hread⟩ := readOperand_ok hx
  have he : exec (.arb a) s = complete (.raise .arithmeticOverflow (s.withMlen n)) := by
    cases hr : fits64 (s.rb.toInt + x.toInt) with
    | false => simp [exec, execArb, hread, narrow_raise _ hr]
    | true =>
      have hi := hbad.resolve_left (by simp [hr])
      have hnext := nextIp_raise (len := 2) (s := s.withMlen n) hi
      simp [exec, execArb, hread, narrow_ok _ hr, hnext]
  exact he ▸ faultsWith_complete_raise g

/-- Settles O15: the operand is read under the old `RB`, then the sum and `IP + 2` checked, and only then both
registers written. -/
theorem adjustRelativeBaseRule : Obligations.AdjustRelativeBaseRule := by
  refine ⟨fun a s x hx hr hi => ?_, fun _ _ => ⟨fun _ => exec_arb_operandFault, fun _ => exec_arb_overflow⟩,
    fun _ => ⟨rfl, rfl⟩, invalidModeFor_of_mem (by decide)⟩
  obtain ⟨n, g, he⟩ := exec_arb_adjusts hx hr hi
  exact ⟨_, he, toInt_ofInt_of_fits hr, toInt_ofInt_of_fits hi, g.1, rfl⟩

/-! ## Halt -/

/-- Halt with `IP + 1` a Word stops with `Halted` (44_system R171). -/
theorem exec_halt_halts {s : State} (hi : fits64 (s.ip.toInt + 1) = true) :
    exec .halt s = .next (stop .halted { s with ip := BitVec.ofInt 64 (s.ip.toInt + 1), halted := true }) := by
  have hnext := nextIp_ok (len := 1) hi
  simp only [exec, execHalt, hnext, Res.bind_ok]
  rfl

/-- Halt checks `IP + 1` before it sets `HALTED` (44_system R171). -/
theorem exec_halt_overflow {s : State} (hi : fits64 (s.ip.toInt + 1) = false) :
    FaultsWith s (exec .halt s) .arithmeticOverflow := by
  have hnext := nextIp_raise (len := 1) hi
  have he : exec .halt s = complete (.raise .arithmeticOverflow s) := by simp [exec, execHalt, hnext]
  exact he ▸ faultsWith_complete_raise (Grows.refl s)

/-- An invocation of an idle Halted core only delivers `Halted` (44_system R171, 60_exceptions R202). -/
theorem hostIssue_invoke_halted {s : State} (v : Word) (hb : s.busy = false) (hh : s.halted = true) :
    hostIssue (.invoke v) s = reply (.outcome .halted) s := by
  simp [hostIssue, hostInvoke, hb, hh]

/-- Settles O16: `IP + 1` is checked, then the core stops Halted and idle, which every later invocation finds. -/
theorem haltRule : Obligations.HaltRule :=
  ⟨fun _ hi => ⟨_, exec_halt_halts hi, toInt_ofInt_of_fits hi, rfl, fun v => hostIssue_invoke_halted v rfl rfl⟩,
    fun _ => exec_halt_overflow, ⟨rfl, rfl⟩, invalidModeFor_of_mem (by decide)⟩

end Sys2Proof.Machine
end

section
/-! PROOFS. Exceptions (60_exceptions): the faults of the fetch in their order, precise fault entry, what stops an
invocation, and the terminal statuses. -/

namespace Sys2Proof.Machine

/-! ## The faults of phases 1 to 5 -/

theorem toDigit_eq_one {m : Mode} : m.toDigit = 1 ↔ m = .immediate := by
  cases m <;> decide

/-- Phase 4 in digits: the target's place is digit 4 of a format F3 opcode and digit 2 of input (30_encoding R99,
R110). -/
theorem badTarget_iff (h : Header) :
    h.badTarget = true ↔
      ((h.op.toCode : Int) ∈ [(1 : Int), 2, 7, 8] ∧ (h.m3.toDigit : Int) = 1) ∨
        ((h.op.toCode : Int) = 3 ∧ (h.m1.toDigit : Int) = 1) := by
  obtain ⟨op, m1, m2, m3⟩ := h
  cases op <;> simp [Header.badTarget, Opcode.toCode, toDigit_eq_one]

/-- Phase 4: a header with an Immediate write target faults before any parameter is fetched (30_encoding R112). -/
theorem fetchInstr_raise_of_badTarget {s : State} {h : Header} (ha : Accessible s s.ip.toInt)
    (hh : decodeHeader (readCell s.mem s.ip.toInt.toNat) = .ok h) (hbad : h.badTarget = true) :
    ∃ n, fetchInstr s = .raise .invalidWriteTarget (s.withMlen n) := by
  obtain ⟨n, he, -, -⟩ := extend_grows ha
  exact ⟨n, by simp [fetchInstr, memRead_ok ha, hh, hbad, he]⟩

/-- Phase 5: a word of the instruction outside the memory faults `OutOfStorage`; it is a parameter, since the word at
`IP` was read in phase 1 (30_encoding R112, R113). -/
theorem fetchInstr_raise_of_parameters {s : State} {h : Header} (ha : Accessible s s.ip.toInt)
    (hh : decodeHeader (readCell s.mem s.ip.toInt.toNat) = .ok h) (hgood : h.badTarget = false)
    (hout : ∃ j : Nat, j < h.op.length ∧ ¬ Accessible s (s.ip.toInt + j)) :
    ∃ n, fetchInstr s = .raise .outOfStorage (s.withMlen n) := by
  obtain ⟨m, he, -, -⟩ := extend_grows ha
  have hparam : ∃ j : Nat, j < h.op.params ∧ ¬ Accessible (s.withMlen m) (s.ip.toInt + 1 + j) := by
    obtain ⟨j, hj, hnot⟩ := hout
    cases j with
    | zero => exact absurd (by simpa using ha) hnot
    | succ j =>
      have hj' : s.ip.toInt + 1 + j = s.ip.toInt + (j + 1 : Nat) := by omega
      exact ⟨j, Nat.lt_of_succ_lt_succ hj, by rwa [accessible_withMlen, hj']⟩
  obtain ⟨n, -, hraise⟩ := fetchWords_raise h.op.params (s.ip.toInt + 1) (s.withMlen m) (by have := ha.1; omega) hparam
  exact ⟨n, by simp [fetchInstr, memRead_ok ha, hh, hgood, he, hraise, withMlen_withMlen]⟩

/-- A fault of the fetch is a precise fault of the step: taking the host's move changes nothing the fetch reads
(60_exceptions R217). -/
theorem faultsWith_step_of_fetchInstr {s s' : State} {k : FaultKind} (ho : servedOp s = none) (hb : s.busy = true)
    (h : fetchInstr s = .raise k s') : FaultsWith (takeMove s) (step s) k := by
  rw [step_busy ho hb]
  obtain ⟨k', _, q, -, -, gq, hs, ht⟩ | ⟨i, _, _, -, -, hs, -⟩ := (agree_takeMove s).fetchInstr
  · rw [h] at hs
    cases hs
    exact faultsWith_stepInstr gq ht
  · rw [h] at hs
    cases hs

/-- Settles O35, phase by phase: each clause says what the fetch raises where the phases before passed. -/
theorem fetchFaultsInOrder : Obligations.FetchFaultsInOrder := by
  intro s ho hb
  refine ⟨fun k hk => faultsWith_step_of_fetchInstr ho hb (fetchInstr_raise_of_addressFaults hk), ?_⟩
  rintro ha w rfl
  obtain ⟨hneg, hcode, hmode, hgood⟩ := decoderOnEveryWord (readCell s.mem s.ip.toInt.toNat)
  have hdecode {k : FaultKind} (hk : decodeHeader (readCell s.mem s.ip.toInt.toNat) = .error k) :
      FaultsWith (takeMove s) (step s) k := by
    obtain ⟨n, -, hraise⟩ := fetchInstr_raise_of_decodeHeader ha hk
    exact faultsWith_step_of_fetchInstr ho hb hraise
  refine ⟨fun hop => hdecode ?_, fun h0 hop => ⟨fun hbad => hdecode (hmode h0 hop hbad), fun hdigits => ?_⟩⟩
  · by_cases h0 : 0 ≤ (readCell s.mem s.ip.toInt.toNat).toInt
    · exact hcode h0 (hop.resolve_left (not_lt.mpr h0))
    · exact hneg (not_le.mp h0)
  · obtain ⟨h, hh, hcode', hm1, -, hm3⟩ := hgood h0 hop hdigits
    have htarget := badTarget_iff h
    rw [hcode', hm1, hm3] at htarget
    refine ⟨fun himm => ?_, fun himm h' hh' hout => ?_⟩
    · obtain ⟨n, hraise⟩ := fetchInstr_raise_of_badTarget ha hh (htarget.mpr himm)
      exact faultsWith_step_of_fetchInstr ho hb hraise
    · obtain rfl : h = h' := Except.ok.inj (hh.symm.trans hh')
      have hfine : h.badTarget = false := Bool.eq_false_iff.mpr (mt htarget.mp himm)
      obtain ⟨n, hraise⟩ := fetchInstr_raise_of_parameters ha hh hfine hout
      exact faultsWith_step_of_fetchInstr ho hb hraise

/-! ## What a step of a busy core stops with -/

/-- The instruction goes on: it is no output, no halt and no input without a value, and it touches neither `BUSY`, nor
`FAULTED`, nor the host's inbox (60_exceptions R203). -/
def GoesOn (i : Instr) (s t : State) : Prop :=
  i.opcode ≠ .out ∧ i.opcode ≠ .halt ∧ (i.opcode = .inp → s.inValid = true) ∧
    t.busy = s.busy ∧ t.faulted = s.faulted ∧ t.hostInbox = s.hostInbox

/-- The outcome is the instruction's own: an output's value, a halt, or an input that finds no value; no instruction
that completes gives a fault (60_exceptions R201, R203). -/
def StopsWith (i : Instr) (s t : State) : InvokeOutcome → Prop
  | .produced v => ∃ a, i = .out a ∧ ReadsAs a s v ∧ t.out = v
  | .halted => i = .halt ∧ t.halted = true
  | .needInput => ∃ dst, i = .inp dst ∧ s.inValid = false
  | .fault _ => False

/-- An instruction that completes goes on or stops with an outcome of its own (60_exceptions R203). -/
theorem Completed.goesOn_or_stopsWith {i : Instr} {s t : State} (h : Completed i s t) :
    GoesOn i s t ∨ ∃ o, t.busy = false ∧ deliveredOutcome t = some o ∧ StopsWith i s t o := by
  cases i with
  | add | mul | lt | eq =>
    obtain ⟨_, _, _, _, -, -, -, -, rfl⟩ := h
    exact .inl ⟨nofun, nofun, nofun, rfl, rfl, rfl⟩
  | inp dst =>
    obtain ⟨hv, rfl⟩ | ⟨_, _, _, hv, -, -, -, -, rfl⟩ := h
    · exact .inr ⟨.needInput, rfl, rfl, dst, rfl, hv⟩
    · exact .inl ⟨nofun, nofun, fun _ => hv, rfl, rfl, rfl⟩
  | out a =>
    obtain ⟨x, _, _, hx, -, -, rfl⟩ := h
    exact .inr ⟨.produced x, rfl, rfl, a, rfl, hx, rfl⟩
  | jt | jf =>
    obtain ⟨_, _, -, rfl⟩ := h
    exact .inl ⟨nofun, nofun, nofun, rfl, rfl, rfl⟩
  | arb =>
    obtain ⟨_, _, _, _, -, -, -, -, rfl⟩ := h
    exact .inl ⟨nofun, nofun, nofun, rfl, rfl, rfl⟩
  | halt =>
    obtain ⟨_, -, rfl⟩ := h
    exact .inr ⟨.halted, rfl, rfl, rfl, rfl⟩

/-- A step of a busy core that the host leaves alone faults, or completes the instruction it runs. -/
theorem busy_step_faulted_or_completed {s t : State} (ho : servedOp s = none) (hb : s.busy = true)
    (h : step s = .next t) :
    Faulted (takeMove s) t ∨ ∃ i n, RunsInstr s i ∧ Completed i ((takeMove s).withMlen n) t := by
  rw [step_busy ho hb] at h
  obtain hf | ⟨i, n, hfetch, -, hc⟩ := stepInstr_next h
  · exact .inl hf
  obtain ⟨_, _, _, -, -, -, -, ht⟩ | ⟨j, p, _, -, -, hs, ht⟩ := (agree_takeMove s).fetchInstr
  · rw [hfetch] at ht
    cases ht
  · rw [hfetch] at ht
    cases ht
    exact .inr ⟨i, n, ⟨ho, hb, _, hs⟩, hc⟩

/-- How an instruction ends does not depend on `MLEN` or on the host's move. -/
theorem StopsWith.of_takeMove {i : Instr} {s t : State} {n : Nat} {o : InvokeOutcome}
    (h : StopsWith i ((takeMove s).withMlen n) t o) : StopsWith i s t o := by
  cases o with
  | produced v =>
    obtain ⟨a, hi, hread, hout⟩ := h
    exact ⟨a, hi, (agree_takeMove s).readsAs.mpr hread, hout⟩
  | halted => exact h
  | needInput => simpa [StopsWith] using h
  | fault k => exact h

/-- The three ways a step of a busy core ends: a fault, an instruction that goes on, or one that stops
(60_exceptions R203, R217). -/
theorem busy_step_ends {s t : State} (ho : servedOp s = none) (hb : s.busy = true) (h : step s = .next t) :
    Faulted (takeMove s) t ∨
      ∃ i, RunsInstr s i ∧
        (GoesOn i s t ∨ ∃ o, t.busy = false ∧ deliveredOutcome t = some o ∧ StopsWith i s t o) := by
  obtain hf | ⟨i, n, hrun, hc⟩ := busy_step_faulted_or_completed ho hb h
  · exact .inl hf
  refine .inr ⟨i, hrun, ?_⟩
  obtain hgo | ⟨o, hidle, hout, hstop⟩ := hc.goesOn_or_stopsWith
  · exact .inl (by simpa [GoesOn] using hgo)
  · exact .inr ⟨o, hidle, hout, hstop.of_takeMove⟩

/-- A busy core that stops has faulted, and delivered the fault, or has run an instruction whose outcome it delivers
(60_exceptions R203, R204). -/
theorem busy_step_stops {s t : State} {o : InvokeOutcome} (ho : servedOp s = none) (hb : s.busy = true)
    (h : step s = .next t) (hidle : t.busy = false) (hout : deliveredOutcome t = some o) :
    (∃ k, o = .fault k ∧ k ≠ .noFault ∧ ∃ n, Grows (takeMove s) n ∧ t = enterFault k ((takeMove s).withMlen n)) ∨
      ∃ i, RunsInstr s i ∧ StopsWith i s t o := by
  obtain ⟨k, n, hk, hg, rfl⟩ | ⟨i, hrun, ⟨-, -, -, hbusy, -⟩ | ⟨o', -, hout', hstop⟩⟩ := busy_step_ends ho hb h
  · exact .inl ⟨k, (Option.some.inj hout).symm, hk, n, hg, rfl⟩
  · rw [hidle, hb] at hbusy
    cases hbusy
  · obtain rfl : o' = o := Option.some.inj (hout'.symm.trans hout)
    exact .inr ⟨i, hrun, hstop⟩

/-- Settles O36: an instruction that completes gives no fault, so the step took the one fault entry. -/
theorem faultsArePrecise : Obligations.FaultsArePrecise := by
  intro s t k ho hb h hidle hout
  obtain ⟨_, hk, hne, n, hg, rfl⟩ | ⟨i, -, hstop⟩ := busy_step_stops ho hb h hidle hout
  · cases hk
    exact ⟨hne, _, h, hg.1, rfl⟩
  · exact hstop.elim

/-- Settles O38, by the outcome: a fault comes from fault entry, every other outcome from the one opcode that gives
it, and a step that goes on ran none of these. -/
theorem causesOfStops : Obligations.CausesOfStops := by
  refine ⟨fun s t o ho hb h hidle hout => ?_, fun s t ho hb h hbusy => ?_⟩
  · obtain ⟨k, rfl, -, n, -, rfl⟩ | ⟨i, hrun, hstop⟩ := busy_step_stops ho hb h hidle hout
    · exact ⟨rfl, rfl⟩
    cases o with
    | produced v =>
      obtain ⟨a, rfl, hread, hv⟩ := hstop
      exact ⟨a, hrun, hread, hv⟩
    | halted =>
      obtain ⟨rfl, hh⟩ := hstop
      exact ⟨hrun, hh⟩
    | needInput =>
      obtain ⟨dst, rfl, hv⟩ := hstop
      exact ⟨dst, hrun, hv⟩
    | fault k => exact hstop.elim
  · obtain ⟨_, _, -, -, rfl⟩ | ⟨i, hrun, ⟨hout, hhalt, hinp, -, hf, hi⟩ | ⟨_, hidle, -⟩⟩ := busy_step_ends ho hb h
    · cases hbusy
    · exact ⟨i, hrun, hout, hhalt, hinp, hf, hi⟩
    · rw [hidle] at hbusy
      cases hbusy

/-! ## Terminal statuses -/

theorem sameCheckpoint_takeMove (s : State) : SameCheckpoint s (takeMove s) := by
  simp [SameCheckpoint]

/-- An idle core in a terminal status answers an Invoke at once with its terminal outcome (60_exceptions R202, R219). -/
theorem hostIssue_invoke_terminal {s : State} (v : Word) (hb : s.busy = false)
    (ht : s.halted = true ∨ s.faulted = true) :
    hostIssue (.invoke v) s = reply (.outcome (if s.halted then .halted else .fault s.faultKind)) s := by
  cases hh : s.halted with
  | true => exact hostIssue_invoke_halted v hb hh
  | false =>
    have hf : s.faulted = true := ht.resolve_left (by simp [hh])
    simp [hostIssue, hostInvoke, hb, hh, hf]

/-- An idle core in a terminal status starts no invocation and runs nothing: a step that is no Load or Reset only gives
something back, or only takes the host's move (60_exceptions R219). -/
theorem step_terminal {s t : State} (hb : s.busy = false) (hterm : s.halted = true ∨ s.faulted = true)
    (h : step s = .next t) (hserve : ¬ ServesLoadOrReset s) : (∃ r, t = reply r (takeMove s)) ∨ t = takeMove s := by
  obtain ⟨hload, -⟩ | ⟨_, -, hh, hf, -⟩ | hreply | ⟨-, hidle⟩ | ⟨-, hbusy, -⟩ := step_effect_cases h
  · exact absurd hload hserve
  · simp [hh, hf] at hterm
  · exact .inl hreply
  · exact .inr hidle
  · simp [hb] at hbusy

/-- Settles O43: a step of an idle core in a terminal status keeps the checkpoint, and an Invoke is answered at once. -/
theorem terminalStatusStays : Obligations.TerminalStatusStays := by
  intro s t hb hterm h hserve
  have hbusy : (takeMove s).busy = false := by simpa using hb
  rw [← and_assoc]
  refine ⟨?_, fun v hv => ?_⟩
  · obtain ⟨r, rfl⟩ | rfl := step_terminal hb hterm h hserve <;> exact ⟨sameCheckpoint_takeMove s, hbusy⟩
  · rw [step_served hv] at h
    cases h
    rw [hostIssue_invoke_terminal v hbusy (by simpa using hterm)]
    simp

end Sys2Proof.Machine
end

section
/-! PROOFS. The entry point and reproducible runs (70_reset R262, R264): two cores with one checkpoint, given the same
value, run in lockstep to the same outcome (60_exceptions R206). -/

namespace Sys2Proof.Machine

/-! ## Load and the first Invoke -/

theorem loadable_iff {memWords : Option Nat} {p : List Int} :
    loadable memWords p = true ↔ (∀ x ∈ p, fits64 x = true) ∧ ∀ c, memWords = some c → p.length ≤ c := by
  cases memWords <;> simp [loadable]

/-- A Load that meets its preconditions is carried out (60_exceptions R231). -/
theorem hostIssue_load_accepted {s : State} {p : List Int} (hb : s.busy = false)
    (hl : loadable s.memWords p = true) : hostIssue (.load p) s = loaded (p.map (BitVec.ofInt 64)) s := by
  simp [hostIssue, hostLoad, hb, hl]

theorem hostIssue_invoke_idle {s : State} (v : Word) (hb : s.busy = false) :
    hostIssue (.invoke v) s = hostInvoke v s := by
  simp [hostIssue, hb]

/-- An Invoke of a Running core starts an invocation (60_exceptions R202). -/
theorem hostInvoke_running {s : State} (v : Word) (hh : s.halted = false) (hf : s.faulted = false) :
    hostInvoke v s = { s with inData := v, inValid := true, busy := true } := by
  simp [hostInvoke, hh, hf]

/-- After a Load address 0 holds the program's first word, or 0 if it has none (20_memory R62). -/
theorem readCell_loaded_zero {p : List Int} (s : State) (hp : ∀ x ∈ p, fits64 x = true) :
    (readCell (loaded (p.map (BitVec.ofInt 64)) s).mem 0).toInt = p.getD 0 0 := by
  rw [loaded_mem, readCell_cellsFrom, if_pos le_rfl]
  cases p with
  | nil => rfl
  | cons x xs => exact toInt_ofInt_of_fits (hp x List.mem_cons_self)

/-- Settles O48: the Load is accepted and leaves a Running core at address 0, of which Invoke changes only the latch and
`BUSY`. -/
theorem entryPoint : Obligations.EntryPoint := by
  intro p v s hb hp hc
  have hload := hostIssue_load_accepted hb (loadable_iff.mpr ⟨hp, hc⟩)
  rw [hload, hostIssue_invoke_idle v (loaded_busy _ s), hostInvoke_running v (loaded_halted _ s) (loaded_faulted _ s)]
  exact ⟨_, rfl, rfl, rfl, rfl, rfl, readCell_loaded_zero s hp⟩

/-! ## Two cores in lockstep -/

/-- The cores hold one checkpoint; while they run they agree on what an instruction reads, and once they are idle the
outcome delivered last is the same. Neither `MLEN` nor the older part of the inbox need be the same. -/
structure Lockstep (s t : State) : Prop where
  checkpoint : SameCheckpoint s t
  busy : s.busy = t.busy
  running : s.busy = true → Agree s t
  delivered : s.busy = false → deliveredOutcome s = deliveredOutcome t

/-- An instruction's effect on two running cores keeps them in lockstep (60_exceptions R206). -/
theorem Effect.apply_lockstep {e : Effect} {n m : Nat} {s t : State} (h : Lockstep s t) (hb : s.busy = true)
    (he : e.Sound n s) : Lockstep (e.apply n s) (e.apply m t) := by
  obtain ⟨hip, hrb, hhalted, hfaulted, hkind, hout, hmem, hwords⟩ := h.checkpoint
  have hagree := h.running hb
  cases e with
  | fault k => exact ⟨⟨hip, hrb, hhalted, rfl, rfl, hout, hmem, hwords⟩, rfl, nofun, fun _ => rfl⟩
  | needInput => exact ⟨⟨hip, hrb, hhalted, hfaulted, hkind, hout, hmem, hwords⟩, rfl, nofun, fun _ => rfl⟩
  | produce x next => exact ⟨⟨rfl, hrb, hhalted, hfaulted, hkind, rfl, hmem, hwords⟩, rfl, nofun, fun _ => rfl⟩
  | halt next => exact ⟨⟨rfl, hrb, rfl, hfaulted, hkind, hout, hmem, hwords⟩, rfl, nofun, fun _ => rfl⟩
  | jump next =>
    exact ⟨⟨rfl, hrb, hhalted, hfaulted, hkind, hout, hmem, hwords⟩, h.busy,
      fun _ => { hagree with ip := rfl }, h.delivered⟩
  | adjust r next =>
    exact ⟨⟨rfl, rfl, hhalted, hfaulted, hkind, hout, hmem, hwords⟩, h.busy,
      fun _ => { hagree with ip := rfl, rb := rfl }, h.delivered⟩
  | store d r next =>
    have hcell : writeCell s.mem d r = writeCell t.mem d r := by rw [hmem]
    exact ⟨⟨rfl, hrb, hhalted, hfaulted, hkind, hout, hcell, hwords⟩, h.busy,
      fun _ => { hagree with ip := rfl, mem := hcell }, h.delivered⟩
  | take d next =>
    obtain ⟨-, -, hv⟩ := he
    have hcell : writeCell s.mem d s.inData = writeCell t.mem d t.inData := by rw [hmem, hagree.inData hv]
    exact ⟨⟨rfl, hrb, hhalted, hfaulted, hkind, hout, hcell, hwords⟩, h.busy,
      fun _ => { hagree with ip := rfl, mem := hcell, inValid := rfl, inData := nofun }, h.delivered⟩

/-- Running cores that agree on what an instruction reads take the same effect. -/
theorem stepInstr_lockstep {s t : State} (h : Lockstep s t) (hb : s.busy = true) :
    ∃ s' t', stepInstr s = .next s' ∧ stepInstr t = .next t' ∧ Lockstep s' t' := by
  obtain ⟨e, he, -⟩ := stepInstr_effect s
  obtain ⟨n, -, hsound, hs⟩ := he s (Agree.refl s)
  obtain ⟨m, -, -, ht⟩ := he t (h.running hb)
  exact ⟨_, _, hs, ht, Effect.apply_lockstep h hb hsound⟩

/-! ## Running to a stop -/

theorem runUntilStop_idle {s : State} (n : Nat) (hb : s.busy = false) : runUntilStop n s = some s := by
  cases n <;> simp [runUntilStop, hb]

theorem runUntilStop_zero_busy {s : State} (hb : s.busy = true) : runUntilStop 0 s = none := by
  simp [runUntilStop, hb]

theorem runUntilStop_succ_busy {s t : State} (n : Nat) (hb : s.busy = true) (h : stepInstr s = .next t) :
    runUntilStop (n + 1) s = runUntilStop n t := by
  simp [runUntilStop, hb, h]

theorem runUntilStop_lockstep_idle {n : Nat} {s t s' : State} (h : Lockstep s t) (hb : s.busy = false)
    (hrun : runUntilStop n s = some s') :
    ∃ t', runUntilStop n t = some t' ∧ Lockstep s' t' ∧ s'.busy = false := by
  rw [runUntilStop_idle n hb] at hrun
  cases hrun
  exact ⟨t, runUntilStop_idle n (h.busy ▸ hb), h, hb⟩

/-- If one of two cores in lockstep stops within `n` instructions, so does the other, and they are still in lockstep. -/
theorem runUntilStop_lockstep {n : Nat} {s t s' : State} (h : Lockstep s t) (hrun : runUntilStop n s = some s') :
    ∃ t', runUntilStop n t = some t' ∧ Lockstep s' t' ∧ s'.busy = false := by
  induction n generalizing s t with
  | zero =>
    cases hb : s.busy with
    | false => exact runUntilStop_lockstep_idle h hb hrun
    | true =>
      rw [runUntilStop_zero_busy hb] at hrun
      cases hrun
  | succ n ih =>
    cases hb : s.busy with
    | false => exact runUntilStop_lockstep_idle h hb hrun
    | true =>
      obtain ⟨s₁, t₁, hs, ht, h₁⟩ := stepInstr_lockstep h hb
      rw [runUntilStop_succ_busy n hb hs] at hrun
      rw [runUntilStop_succ_busy n (h.busy ▸ hb) ht]
      exact ih h₁ hrun

/-! ## Invocations -/

/-- An Invoke puts two idle cores with one checkpoint in lockstep: both answer the same at once, or both start with the
same value in the latch (60_exceptions R202). -/
theorem hostInvoke_lockstep {s t : State} (v : Word) (h : SameCheckpoint s t) (hs : s.busy = false)
    (ht : t.busy = false) : Lockstep (hostInvoke v s) (hostInvoke v t) := by
  obtain ⟨hip, hrb, hhalted, hfaulted, hkind, hout, hmem, hwords⟩ := h
  by_cases hterm : s.halted = true ∨ s.faulted = true
  · have hterm' : t.halted = true ∨ t.faulted = true := hhalted ▸ hfaulted ▸ hterm
    rw [← hostIssue_invoke_idle v hs, ← hostIssue_invoke_idle v ht, hostIssue_invoke_terminal v hs hterm,
      hostIssue_invoke_terminal v ht hterm', ← hhalted, ← hkind]
    have hbusy : s.busy = t.busy := hs.trans ht.symm
    have hidle : ¬ s.busy = true := Bool.eq_false_iff.mp hs
    exact ⟨⟨hip, hrb, hhalted, hfaulted, hkind, hout, hmem, hwords⟩, hbusy, fun hb => absurd hb hidle, fun _ => rfl⟩
  · obtain ⟨hh, hf⟩ : s.halted = false ∧ s.faulted = false := by simpa using hterm
    rw [hostInvoke_running v hh hf, hostInvoke_running v (hhalted ▸ hh) (hfaulted ▸ hf)]
    exact ⟨⟨hip, hrb, hhalted, hfaulted, hkind, hout, hmem, hwords⟩, rfl,
      fun _ => ⟨hip, hrb, hmem, hwords, rfl, fun _ => rfl⟩, nofun⟩

theorem invokeWithin_eq_some {n : Nat} {v : Word} {s t : State} {o : InvokeOutcome} :
    invokeWithin n v s = some (o, t) ↔
      runUntilStop n (hostInvoke v s) = some t ∧ deliveredOutcome t = some o := by
  unfold invokeWithin
  cases runUntilStop n (hostInvoke v s) with
  | none => simp
  | some u =>
    cases hu : deliveredOutcome u <;> grind

/-- The outcome and the checkpoint an invocation leaves are a function of the checkpoint and the value
(60_exceptions R206). -/
theorem invokeWithin_of_sameCheckpoint {n : Nat} {v : Word} {s t s' : State} {o : InvokeOutcome}
    (h : SameCheckpoint s t) (hs : s.busy = false) (ht : t.busy = false) (hrun : invokeWithin n v s = some (o, s')) :
    ∃ t', invokeWithin n v t = some (o, t') ∧ SameCheckpoint s' t' ∧ s'.busy = false ∧ t'.busy = false := by
  obtain ⟨hstop, hout⟩ := invokeWithin_eq_some.mp hrun
  obtain ⟨t', hstop', hlock, hidle⟩ := runUntilStop_lockstep (hostInvoke_lockstep v h hs ht) hstop
  have hout' : deliveredOutcome t' = some o := (hlock.delivered hidle).symm.trans hout
  exact ⟨t', invokeWithin_eq_some.mpr ⟨hstop', hout'⟩, hlock.checkpoint, hidle, hlock.busy ▸ hidle⟩

theorem invokeAll_cons_eq_some {n : Nat} {v : Word} {vs : List Word} {s u : State} {os : List InvokeOutcome} :
    invokeAll n (v :: vs) s = some (os, u) ↔
      ∃ o t os', invokeWithin n v s = some (o, t) ∧ invokeAll n vs t = some (os', u) ∧ o :: os' = os := by
  rw [invokeAll]
  cases invokeWithin n v s with
  | none => simp
  | some p =>
    obtain ⟨o, t⟩ := p
    cases hrest : invokeAll n vs t <;> grind

/-- The same holds of any number of invocations, each from the checkpoint the one before it left. -/
theorem invokeAll_of_sameCheckpoint {n : Nat} {vs : List Word} {s t s' : State} {os : List InvokeOutcome}
    (h : SameCheckpoint s t) (hs : s.busy = false) (ht : t.busy = false) (hrun : invokeAll n vs s = some (os, s')) :
    ∃ t', invokeAll n vs t = some (os, t') ∧ SameCheckpoint s' t' := by
  induction vs generalizing s t os with
  | nil =>
    cases hrun
    exact ⟨t, rfl, h⟩
  | cons v vs ih =>
    obtain ⟨o, s₁, os₁, hfirst, hrest, rfl⟩ := invokeAll_cons_eq_some.mp hrun
    obtain ⟨t₁, hfirst', h₁, hs₁, ht₁⟩ := invokeWithin_of_sameCheckpoint h hs ht hfirst
    obtain ⟨t', hrest', h'⟩ := ih h₁ hs₁ ht₁ hrest
    exact ⟨t', invokeAll_cons_eq_some.mpr ⟨o, t₁, os₁, hfirst', hrest', rfl⟩, h'⟩

/-- Loading puts the same checkpoint into every core of one capacity, whatever it held (60_exceptions R231). -/
theorem sameCheckpoint_loaded (ws : List Word) {s t : State} (h : s.memWords = t.memWords) :
    SameCheckpoint (loaded ws s) (loaded ws t) :=
  ⟨rfl, rfl, rfl, rfl, rfl, rfl, rfl, h⟩

/-- Settles O51: both cores start from one checkpoint, and each invocation is a function of checkpoint and value. -/
theorem runsAreReproducible : Obligations.RunsAreReproducible := by
  intro n program vs s t s' os hwords hrun
  exact invokeAll_of_sameCheckpoint (sameCheckpoint_loaded program hwords) rfl rfl hrun

end Sys2Proof.Machine
end

section
/-! PROOFS. Encoding (30_encoding section 3): the encoder, the decoder and the assembler agree, since all three build on
an instruction's parameters in order. -/

namespace Sys2Proof

open Sys2Proof.Machine

/-! ## An instruction's encoding by its parameters -/

/-- The mode of a parameter by its place; a parameter the opcode lacks has the digit 0 (30_encoding R109). -/
def paramMode (i : Instr) (k : Nat) : Mode := ((operands i)[k]?.map Param.mode).getD .position

/-- The header that an instruction's canonical word spells (30_encoding R109). -/
def canonicalHeader (i : Instr) : Header := ⟨i.opcode, paramMode i 0, paramMode i 1, paramMode i 2⟩

theorem encode_eq (i : Instr) :
    encode i = canonicalWord i.opcode (paramMode i 0) (paramMode i 1) (paramMode i 2) ::
      (operands i).map Param.word := by
  cases i <;> rfl

theorem length_operands (i : Instr) : (operands i).length = i.opcode.params := by
  cases i <;> rfl

/-- A header and parameter words make the instruction whose header and parameters they are. -/
theorem toInstr_canonicalHeader (i : Instr) (rest : List Word) :
    (canonicalHeader i).toInstr ((operands i).map Param.word ++ rest) = i := by
  cases i <;> rfl

/-- An instruction word followed by enough words decodes to its header's instruction (30_encoding R107). -/
theorem decode_of_header {w : Word} {ws : List Word} {h : Header} (hw : decodeHeader w = .ok h)
    (hlen : h.op.params ≤ ws.length) : decode (w :: ws) = .ok (h.toInstr ws, ws.drop h.op.params) := by
  simp [decode, hw, not_lt.mpr hlen]

/-- Settles O2: the canonical word decodes to its header, and as many parameter words are taken as were written. -/
theorem decodeOfEncode : Obligations.DecodeOfEncode := by
  intro i rest
  have hlen : ((operands i).map Param.word).length = i.opcode.params := by rw [List.length_map, length_operands]
  have hdrop : ((operands i).map Param.word ++ rest).drop i.opcode.params = rest := by rw [← hlen, List.drop_left]
  have hw : decodeHeader (canonicalWord i.opcode (paramMode i 0) (paramMode i 1) (paramMode i 2)) =
      .ok (canonicalHeader i) := decodeHeader_canonicalWord ..
  rw [encode_eq, List.cons_append, decode_of_header hw, toInstr_canonicalHeader]
  · exact congrArg (fun ws => Except.ok (i, ws)) hdrop
  · rw [List.length_append, hlen]
    exact Nat.le_add_right ..

/-! ## Accepted words are spellings of canonical words -/

/-- An accepted word is its header's digits and nothing more (30_encoding R105, R109). -/
theorem toInt_of_decodeHeader_ok {w : Word} {h : Header} (hw : decodeHeader w = .ok h) :
    w.toInt = (h.op.toCode + 100 * h.m1.toDigit + 1000 * h.m2.toDigit + 10000 * h.m3.toDigit : Nat) := by
  obtain ⟨hneg, hcode, hmode, hgood⟩ := decoderOnEveryWord w
  rw [hw] at hneg hcode hmode hgood
  have h0 : 0 ≤ w.toInt := not_lt.mp fun hlt => nomatch hneg hlt
  have hop : w.toInt % 100 ∈ opcodeValues := not_not.mp fun hop => nomatch hcode h0 hop
  have hdigits : ¬ BadModeDigit w := fun hbad => nomatch hmode h0 hop hbad
  obtain ⟨k, hk, hc, h1, h2, h3⟩ := hgood h0 hop hdigits
  cases hk
  unfold BadModeDigit at hdigits
  omega

theorem toInt_canonicalWord (op : Opcode) (m1 m2 m3 : Mode) :
    (canonicalWord op m1 m2 m3).toInt =
      (op.toCode + 100 * m1.toDigit + 1000 * m2.toDigit + 10000 * m3.toDigit : Nat) :=
  toInt_of_decodeHeader_ok (decodeHeader_canonicalWord op m1 m2 m3)

theorem toDigit_le (m : Mode) : m.toDigit ≤ 2 := by cases m <;> decide

theorem toCode_lt (op : Opcode) : op.toCode < 100 := by cases op <;> decide

theorem canonicalWord_range (op : Opcode) (m1 m2 m3 : Mode) :
    0 ≤ (canonicalWord op m1 m2 m3).toInt ∧ (canonicalWord op m1 m2 m3).toInt < 100000 := by
  have hop := toCode_lt op
  have h1 := toDigit_le m1
  have h2 := toDigit_le m2
  have h3 := toDigit_le m3
  rw [toInt_canonicalWord]
  omega

/-- The parameters of a header's instruction are the words it was given, as many as the opcode has. -/
theorem operands_toInstr {h : Header} {ws : List Word} (hlen : h.op.params ≤ ws.length) :
    (operands (h.toInstr ws)).map Param.word = ws.take h.op.params := by
  have hread : (operands (h.toInstr ws)).map Param.word = (List.range h.op.params).map fun k => ws.getD k 0 := by
    obtain ⟨op, m1, m2, m3⟩ := h
    cases op <;> rfl
  rw [hread]
  refine List.ext_getElem (by simpa using hlen) fun k hk _ => ?_
  have hk' : k < h.op.params := by simpa using hk
  rw [List.getElem_map, List.getElem_range, List.getElem_take, List.getD_eq_getElem _ _ (hk'.trans_le hlen)]

/-- The canonical spelling keeps the modes of the parameters the opcode has, and writes the others 0
(30_encoding R100, R109). -/
theorem canonicalHeader_toInstr (h : Header) (ws : List Word) :
    canonicalHeader (h.toInstr ws) =
      ⟨h.op, if 1 ≤ h.op.params then h.m1 else .position, if 2 ≤ h.op.params then h.m2 else .position,
        if 3 ≤ h.op.params then h.m3 else .position⟩ := by
  obtain ⟨op, m1, m2, m3⟩ := h
  cases op <;> rfl

theorem params_cases (op : Opcode) : op.params = 0 ∨ op.params = 1 ∨ op.params = 2 ∨ op.params = 3 := by
  cases op <;> decide

/-- A header's canonical spelling and the word it was read from agree up to the mode digit of the last parameter: one
parameter ends at digit 2, two at digit 3, three at digit 4. -/
theorem canonicalWord_toInstr_mod {w : Word} {h : Header} (hw : decodeHeader w = .ok h) (ws : List Word) :
    (canonicalWord (h.toInstr ws).opcode (paramMode (h.toInstr ws) 0) (paramMode (h.toInstr ws) 1)
        (paramMode (h.toInstr ws) 2)).toInt % (10 ^ ((h.toInstr ws).length + 1)) =
      w.toInt % (10 ^ ((h.toInstr ws).length + 1)) := by
  obtain ⟨hop, h1, h2, h3⟩ := Header.mk.inj (canonicalHeader_toInstr h ws)
  have hcode := toCode_lt h.op
  have hd1 := toDigit_le h.m1
  have hd2 := toDigit_le h.m2
  rw [toInt_canonicalWord, toInt_of_decodeHeader_ok hw, hop, h1, h2, h3, toInstr_length]
  have hnone : Mode.toDigit .position = 0 := rfl
  obtain hp | hp | hp | hp := params_cases h.op <;> norm_num [Opcode.length, hp, hnone] <;> omega

/-- Settles O3: an accepted word is its digits, and the encoder spells the same digits where the opcode has a parameter
for them. -/
theorem acceptedWordsAreSpellings : Obligations.AcceptedWordsAreSpellings := by
  refine ⟨fun i => ⟨_, _, encode_eq i, canonicalWord_range ..⟩, fun w h => toInt_of_decodeHeader_ok,
    fun w ws rest i hok => ?_⟩
  obtain ⟨h, hw, hlen, rfl, rfl⟩ := decode_ok hok
  refine ⟨_, _, encode_eq _, ?_, canonicalWord_toInstr_mod hw ws⟩
  rw [operands_toInstr hlen, List.take_append_drop]

/-- Settles O1, by running the decoder on each word. -/
theorem specWordsDecode : Obligations.SpecWordsDecode :=
  ⟨rfl, rfl, rfl, rfl, rfl, rfl, rfl, rfl, rfl, rfl, rfl, rfl, rfl⟩

/-! ## Assembly -/

/-- A parameter as an operand with a literal (30_encoding R115). -/
def literalOperand (p : Param) : AsmOperand := ⟨p.mode, .lit p.word.toInt⟩

/-- A literal that is a Word assembles to that Word, whatever labels there are. -/
theorem asmWord_literalOperand (labels : List (String × Nat)) (p : Param) :
    asmWord labels (literalOperand p).number = some p.word :=
  narrow?_eq_some.mpr rfl

theorem mapM_asmWord_literalOperand (labels : List (String × Nat)) (ps : List Param) :
    (ps.map literalOperand).mapM (fun o => asmWord labels o.number) = some (ps.map Param.word) := by
  induction ps with
  | nil => rfl
  | cons p ps ih => simp [asmWord_literalOperand, ih]

theorem operandMode_literalOperand (i : Instr) (k : Nat) :
    operandMode ((operands i).map literalOperand) k = paramMode i k := by
  unfold operandMode paramMode
  rw [List.getElem?_map]
  cases (operands i)[k]? <;> rfl

/-- A line of an instruction with literal operands assembles to its encoding (30_encoding R109, R115). -/
theorem assembleLine_instr (labels : List (String × Nat)) (i : Instr) :
    assembleLine labels (.instr i.opcode ((operands i).map literalOperand)) = some (encode i) := by
  simp only [assembleLine, expandLine, List.length_map, length_operands, if_true, mapM_asmWord_literalOperand,
    operandMode_literalOperand, encode_eq]

/-- Settles O50: the one line of the program assembles to the encoding. -/
theorem assemblyGivesTheEncoding : Obligations.AssemblyGivesTheEncoding := by
  intro i
  change assemble [.instr i.opcode ((operands i).map literalOperand)] = some (encode i)
  simp [assemble, assembleLine_instr]

end Sys2Proof
end

section
/-! PROOFS. The state (10_state): the legal states that every step keeps, and which steps write each register. -/

namespace Sys2Proof

open Sys2Proof.Machine

/-! ## Legal states -/

/-- Legality says nothing of `IP`, `RB`, `OUT`, `IN_DATA` and the host's own fields. -/
theorem LegalState.withUnconstrained {s : State} (h : LegalState s) (ip rb out inData : Word)
    (moves : List HostMove) (inbox : List HostReply) :
    LegalState { s with ip := ip, rb := rb, out := out, inData := inData, hostMoves := moves, hostInbox := inbox } :=
  ⟨h.memCanonical, h.memWithinLength, h.lengthWithinCapacity, h.notBothFlags, h.kindWithFault, h.busyOnlyRunning,
    h.validOnlyBusy⟩

theorem takeMove_eq (s : State) : takeMove s = { s with hostMoves := (takeMove s).hostMoves } := by
  unfold takeMove
  split
  · rfl
  · rfl
  · rfl
  · split <;> rfl

theorem LegalState.takeMove {s : State} (h : LegalState s) : LegalState (Machine.takeMove s) := by
  rw [takeMove_eq]
  exact h.withUnconstrained ..

theorem LegalState.reply {s : State} (h : LegalState s) (r : HostReply) : LegalState (Machine.reply r s) :=
  h.withUnconstrained ..

/-- A Load that fits the capacity leaves a legal state, whatever was there (60_exceptions R231). -/
theorem legalState_loaded {ws : List Word} {s : State} (h : lengthFits s.memWords ws.length = true) :
    LegalState (loaded ws s) :=
  ⟨cellsFrom_wf 0 ws, cellsBelow_cellsFrom ws, h, nofun, by simp, nofun, nofun⟩

/-- Starting an invocation of a Running core (60_exceptions R202). -/
theorem LegalState.started {s : State} (h : LegalState s) (hh : s.halted = false) (hf : s.faulted = false) (v : Word) :
    LegalState { s with inData := v, inValid := true, busy := true } :=
  ⟨h.memCanonical, h.memWithinLength, h.lengthWithinCapacity, h.notBothFlags, h.kindWithFault, fun _ => ⟨hh, hf⟩,
    fun _ => rfl⟩

/-- Accesses lengthen the memory within the capacity (20_memory R65). -/
theorem LegalState.withMlen {s : State} (h : LegalState s) {n : Nat} (hg : Grows s n) : LegalState (s.withMlen n) :=
  ⟨h.memCanonical, cellsBelow_mono h.memWithinLength hg.1, hg.2 h.lengthWithinCapacity, h.notBothFlags,
    h.kindWithFault, h.busyOnlyRunning, h.validOnlyBusy⟩

/-- A word written below the memory's length keeps it canonical. -/
theorem LegalState.write {s : State} (h : LegalState s) {d : Nat} (hd : d < s.mlen) (v : Word) :
    LegalState { s with mem := writeCell s.mem d v } :=
  ⟨writeCell_wf d v h.memCanonical, cellsBelow_writeCell h.memWithinLength hd, h.lengthWithinCapacity,
    h.notBothFlags, h.kindWithFault, h.busyOnlyRunning, h.validOnlyBusy⟩

theorem LegalState.consume {s : State} (h : LegalState s) : LegalState { s with inValid := false } :=
  ⟨h.memCanonical, h.memWithinLength, h.lengthWithinCapacity, h.notBothFlags, h.kindWithFault, h.busyOnlyRunning,
    nofun⟩

/-- A stop clears the latch with `BUSY` (60_exceptions R204). -/
theorem LegalState.stop {s : State} (h : LegalState s) (o : InvokeOutcome) : LegalState (Machine.stop o s) :=
  ⟨h.memCanonical, h.memWithinLength, h.lengthWithinCapacity, h.notBothFlags, h.kindWithFault, nofun, nofun⟩

/-- A busy core is Running, so that `HALTED` is set in a core that is not Faulted. -/
theorem LegalState.stopHalted {s : State} (h : LegalState s) (hb : s.busy = true) :
    LegalState (Machine.stop .halted { s with halted := true }) :=
  ⟨h.memCanonical, h.memWithinLength, h.lengthWithinCapacity, fun hboth => by simp_all [h.busyOnlyRunning hb],
    h.kindWithFault, nofun, nofun⟩

/-- A busy core is Running, so that fault entry finds a core that is not Halted (60_exceptions R217). -/
theorem LegalState.enterFault {s : State} (h : LegalState s) (hb : s.busy = true) {k : FaultKind}
    (hk : k ≠ .noFault) : LegalState (Machine.enterFault k s) :=
  ⟨h.memCanonical, h.memWithinLength, h.lengthWithinCapacity, fun hboth => by simp_all [h.busyOnlyRunning hb],
    by simpa using hk, nofun, nofun⟩

theorem LegalState.faulted {s t : State} (h : LegalState s) (hb : s.busy = true) (hf : Faulted s t) : LegalState t := by
  obtain ⟨k, n, hk, hg, rfl⟩ := hf
  exact (h.withMlen hg).enterFault hb hk

theorem LegalState.stored {s t : State} (h : LegalState s) (hs : Stored s t) : LegalState t := by
  obtain ⟨d, r, next, n, -, hg, hd, -, rfl⟩ := hs
  exact ((h.withMlen hg).write hd r).withUnconstrained ..

theorem LegalState.jumped {s t : State} (h : LegalState s) (hj : Jumped s t) : LegalState t := by
  obtain ⟨next, n, hg, rfl⟩ := hj
  exact (h.withMlen hg).withUnconstrained ..

/-- An instruction that completes in a busy core leaves a legal state. -/
theorem LegalState.completed {i : Instr} {s t : State} (h : LegalState s) (hb : s.busy = true) (hc : Completed i s t) :
    LegalState t := by
  cases i with
  | add | mul | lt | eq => exact h.stored hc
  | inp dst =>
    obtain ⟨-, rfl⟩ | ⟨d, next, n, -, -, hg, hd, -, rfl⟩ := hc
    · exact h.stop .needInput
    · exact ((h.withMlen hg).write hd s.inData).consume.withUnconstrained ..
  | out a =>
    obtain ⟨x, next, n, -, hg, -, rfl⟩ := hc
    exact ((h.withMlen hg).withUnconstrained ..).stop (.produced x)
  | jt | jf => exact h.jumped hc
  | arb a =>
    obtain ⟨x, r, next, n, -, hg, -, -, rfl⟩ := hc
    exact (h.withMlen hg).withUnconstrained ..
  | halt =>
    obtain ⟨next, -, rfl⟩ := hc
    exact (h.stopHalted hb).withUnconstrained ..

/-- One instruction of a busy core keeps the legal states. -/
theorem LegalState.stepInstr {s t : State} (h : LegalState s) (hb : s.busy = true)
    (hs : Machine.stepInstr s = .next t) : LegalState t := by
  obtain hf | ⟨i, n, -, hg, hc⟩ := stepInstr_next hs
  · exact h.faulted hb hf
  · exact (h.withMlen hg).completed hb hc

/-- Settles O25, by what a step can do: each host operation and each instruction keeps the legal states. -/
theorem stepKeepsLegal : Obligations.StepKeepsLegal := by
  intro s t h hs
  obtain ⟨-, ws, rfl, hfit⟩ | ⟨v, -, hh, hf, rfl⟩ | ⟨r, rfl⟩ | ⟨-, rfl⟩ | ⟨ho, hb, -⟩ := step_effect_cases hs
  · exact legalState_loaded (by rwa [takeMove_memWords])
  · exact h.takeMove.started (by rwa [takeMove_halted]) (by rwa [takeMove_faulted]) v
  · exact h.takeMove.reply r
  · exact h.takeMove
  · rw [step_busy ho hb] at hs
    exact h.takeMove.stepInstr (by rwa [takeMove_busy]) hs

/-- Settles O24: Reset is the Load of the empty program (70_reset R260). -/
theorem resetIsLegal : Obligations.ResetIsLegal :=
  legalState_loaded (ws := []) (s := State.reset) rfl

end Sys2Proof
end

section
/-! PROOFS. The registers and flags (10_state): which steps write each of them, and which of them no instruction
reads. -/

namespace Sys2Proof.Machine

/-! ## What a step writes -/

/-- The instruction writes each register only where it is one of the register's own writers (10_state, the table of
state). -/
structure WritesOnlyItsOwn (i : Instr) (s t : State) : Prop where
  mem : t.mem = s.mem ∨ i.opcode ∈ [Opcode.add, .mul, .inp, .lt, .eq]
  rb : t.rb = s.rb ∨ ∃ a, i = .arb a
  out : t.out = s.out ∨ ∃ a, i = .out a ∧ deliveredOutcome t = some (.produced t.out)
  halted : t.halted = s.halted ∨ i = .halt ∧ t.halted = true
  faulted : t.faulted = s.faulted
  faultKind : t.faultKind = s.faultKind
  memWords : t.memWords = s.memWords

theorem Completed.writesOnlyItsOwn {i : Instr} {s t : State} (h : Completed i s t) : WritesOnlyItsOwn i s t := by
  cases i with
  | add | mul | lt | eq =>
    obtain ⟨_, _, _, _, -, -, -, -, rfl⟩ := h
    exact ⟨.inr (by simp [Instr.opcode]), .inl rfl, .inl rfl, .inl rfl, rfl, rfl, rfl⟩
  | inp =>
    obtain ⟨-, rfl⟩ | ⟨_, _, _, -, -, -, -, -, rfl⟩ := h <;>
      exact ⟨.inr (by simp [Instr.opcode]), .inl rfl, .inl rfl, .inl rfl, rfl, rfl, rfl⟩
  | out a =>
    obtain ⟨_, _, _, -, -, -, rfl⟩ := h
    exact ⟨.inl rfl, .inl rfl, .inr ⟨a, rfl, rfl⟩, .inl rfl, rfl, rfl, rfl⟩
  | jt | jf =>
    obtain ⟨_, _, -, rfl⟩ := h
    exact ⟨.inl rfl, .inl rfl, .inl rfl, .inl rfl, rfl, rfl, rfl⟩
  | arb a =>
    obtain ⟨_, _, _, _, -, -, -, -, rfl⟩ := h
    exact ⟨.inl rfl, .inr ⟨a, rfl⟩, .inl rfl, .inl rfl, rfl, rfl, rfl⟩
  | halt =>
    obtain ⟨_, -, rfl⟩ := h
    exact ⟨.inl rfl, .inl rfl, .inl rfl, .inr ⟨rfl, rfl⟩, rfl, rfl, rfl⟩

/-- The host's move and the fetch write none of these registers. -/
theorem WritesOnlyItsOwn.of_takeMove {i : Instr} {s t : State} {n : Nat}
    (h : WritesOnlyItsOwn i ((takeMove s).withMlen n) t) : WritesOnlyItsOwn i s t :=
  ⟨by simpa using h.mem, by simpa using h.rb, by simpa using h.out, by simpa using h.halted, by simpa using h.faulted,
    by simpa using h.faultKind, by simpa using h.memWords⟩

/-- The registers that neither a fault nor a host operation but Load and Reset writes (60_exceptions R217, R230). -/
structure KeepsRegisters (s t : State) : Prop where
  mem : t.mem = s.mem
  rb : t.rb = s.rb
  out : t.out = s.out
  halted : t.halted = s.halted
  memWords : t.memWords = s.memWords

theorem KeepsRegisters.takeMove (s : State) : KeepsRegisters s (takeMove s) :=
  ⟨takeMove_mem s, takeMove_rb s, takeMove_out s, takeMove_halted s, takeMove_memWords s⟩

theorem KeepsRegisters.trans {s t u : State} (h : KeepsRegisters s t) (h' : KeepsRegisters t u) : KeepsRegisters s u :=
  ⟨h'.mem.trans h.mem, h'.rb.trans h.rb, h'.out.trans h.out, h'.halted.trans h.halted, h'.memWords.trans h.memWords⟩

/-- A fault of the state after the host's move keeps the registers. -/
theorem Faulted.keepsRegisters {s t : State} (h : Faulted (takeMove s) t) : KeepsRegisters s t := by
  obtain ⟨k, n, -, -, rfl⟩ := h
  exact (KeepsRegisters.takeMove s).trans ⟨rfl, rfl, rfl, rfl, rfl⟩

/-- What a step writes: everything, by a Load or Reset; nothing of these registers, but for the fault registers where
a busy core faults; or what its instruction writes. -/
theorem step_writes {s t : State} (h : step s = .next t) :
    (ServesLoadOrReset s ∧ ∃ ws, t = loaded ws (takeMove s)) ∨
    (KeepsRegisters s t ∧
      ((t.faulted = s.faulted ∧ t.faultKind = s.faultKind) ∨ (s.busy = true ∧ Faulted (takeMove s) t))) ∨
    ∃ i, RunsInstr s i ∧ WritesOnlyItsOwn i s t := by
  have hsame : (takeMove s).faulted = s.faulted ∧ (takeMove s).faultKind = s.faultKind := by simp
  have hkeep := KeepsRegisters.takeMove s
  obtain ⟨hl, ws, ht, -⟩ | ⟨v, -, -, -, rfl⟩ | ⟨r, rfl⟩ | ⟨-, rfl⟩ | ⟨ho, hb, -⟩ := step_effect_cases h
  · exact .inl ⟨hl, ws, ht⟩
  · exact .inr (.inl ⟨hkeep.trans ⟨rfl, rfl, rfl, rfl, rfl⟩, .inl hsame⟩)
  · exact .inr (.inl ⟨hkeep.trans ⟨rfl, rfl, rfl, rfl, rfl⟩, .inl hsame⟩)
  · exact .inr (.inl ⟨hkeep, .inl hsame⟩)
  · obtain hf | ⟨i, n, hrun, hc⟩ := busy_step_faulted_or_completed ho hb h
    · exact .inr (.inl ⟨hf.keepsRegisters, .inr ⟨hb, hf⟩⟩)
    · exact .inr (.inr ⟨i, hrun, hc.writesOnlyItsOwn.of_takeMove⟩)

/-- Settles O22, by what a step writes. -/
theorem memoryWriters : Obligations.MemoryWriters := by
  intro s t h hne
  obtain ⟨hl, -⟩ | ⟨hkeep, -⟩ | ⟨i, hrun, hw⟩ := step_writes h
  · exact .inl hl
  · exact absurd hkeep.mem hne
  · exact .inr ⟨i, hrun, hw.mem.resolve_left hne⟩

/-- Settles O28, by what a step writes. -/
theorem relativeBaseWriters : Obligations.RelativeBaseWriters := by
  refine ⟨fun s t h hne => ?_, rfl⟩
  obtain ⟨hl, ws, rfl⟩ | ⟨hkeep, -⟩ | ⟨i, hrun, hw⟩ := step_writes h
  · exact .inl ⟨hl, loaded_rb ..⟩
  · exact absurd hkeep.rb hne
  · obtain ⟨a, rfl⟩ := hw.rb.resolve_left hne
    exact .inr ⟨a, hrun⟩

/-- Settles O33, by what a step writes: the capacity is written by nothing. -/
theorem capacityIsFixed : Obligations.CapacityIsFixed := by
  intro s t h
  obtain ⟨-, ws, rfl⟩ | ⟨hkeep, -⟩ | ⟨i, -, hw⟩ := step_writes h
  · exact takeMove_memWords s
  · exact hkeep.memWords
  · exact hw.memWords

/-- Settles O26: each of the things a step can do is a next state. -/
theorem stepAlwaysAnswers : Obligations.StepAlwaysAnswers := by
  intro s
  obtain ⟨t, h, -⟩ := step_cases s
  exact ⟨t, h⟩

/-! ## The flags and `OUT`, which no instruction reads -/

section
variable (b f : Bool) (k : FaultKind) (w : Word)

/-- Phases whose results differ in unread fields alone complete with memories of one length. -/
theorem complete_mapState_withUnread (r : Res Unit) :
    ∃ t u, complete r = .next t ∧ complete (r.mapState (withUnread b f k w)) = .next u ∧ u.mlen = t.mlen := by
  cases r <;> exact ⟨_, _, rfl, rfl, rfl⟩

theorem execInp_withUnread (dst : Param) (s : State) :
    ∃ r, execInp dst s = complete r ∧
      execInp dst (withUnread b f k w s) = complete (r.mapState (withUnread b f k w)) := by
  refine ⟨_, rfl, congrArg complete ?_⟩
  rw [checkTarget_withUnread]; refine Res.bind_mapState fun _ s => ?_
  rw [writeAddress_withUnread]; refine Res.bind_mapState fun d s => ?_
  have hv : (withUnread b f k w s).inValid = s.inValid := rfl
  rw [hv]
  cases s.inValid with
  | false => rfl
  | true =>
    rw [if_pos rfl, if_pos rfl, nextIp_withUnread]; refine Res.bind_mapState fun _ s => ?_
    have hwrite := memWrite_withUnread b f k w d s.inData { s with inValid := false }
    change (memWrite d s.inData (withUnread b f k w { s with inValid := false })).bind _ = _
    rw [hwrite]; exact Res.bind_mapState fun _ s => rfl

theorem execArb_withUnread (a : Param) (s : State) :
    ∃ r, execArb a s = complete r ∧ execArb a (withUnread b f k w s) = complete (r.mapState (withUnread b f k w)) := by
  refine ⟨_, rfl, congrArg complete ?_⟩
  rw [readOperand_withUnread]; refine Res.bind_mapState fun x s => ?_
  have hrb : (withUnread b f k w s).rb = s.rb := rfl
  rw [hrb, narrow_withUnread]; refine Res.bind_mapState fun _ s => ?_
  rw [nextIp_withUnread]; exact Res.bind_mapState fun _ s => rfl

/-- Output writes the unread `OUT` itself, so only the memory's length is compared. -/
theorem execOut_withUnread_mlen (a : Param) (s : State) :
    ∃ t u, execOut a s = .next t ∧ execOut a (withUnread b f k w s) = .next u ∧ u.mlen = t.mlen := by
  unfold execOut
  rw [readOperand_withUnread]
  cases readOperand a s with
  | raise => exact ⟨_, _, rfl, rfl, rfl⟩
  | ok x s =>
    simp only [Res.mapState, Res.bind_ok, nextIp_withUnread]
    cases nextIp 2 s <;> exact ⟨_, _, rfl, rfl, rfl⟩

/-- Halt writes the unread `HALTED` itself, so only the memory's length is compared. -/
theorem execHalt_withUnread_mlen (s : State) :
    ∃ t u, execHalt s = .next t ∧ execHalt (withUnread b f k w s) = .next u ∧ u.mlen = t.mlen := by
  unfold execHalt
  rw [nextIp_withUnread]
  cases nextIp 1 s <;> exact ⟨_, _, rfl, rfl, rfl⟩

/-- The unread fields do not change how long an instruction leaves the memory. -/
theorem exec_withUnread_mlen (i : Instr) (s : State) :
    ∃ t u, exec i s = .next t ∧ exec i (withUnread b f k w s) = .next u ∧ u.mlen = t.mlen := by
  have hmap {m : State → Host.Outcome State Fault Refusal}
      (h : ∃ r, m s = complete r ∧ m (withUnread b f k w s) = complete (r.mapState (withUnread b f k w))) :
      ∃ t u, m s = .next t ∧ m (withUnread b f k w s) = .next u ∧ u.mlen = t.mlen := by
    obtain ⟨r, hs, hu⟩ := h
    rw [hs, hu]
    exact complete_mapState_withUnread b f k w r
  cases i with
  | add | mul | lt | eq => exact hmap ⟨_, rfl, congrArg complete (computeAndStore_withUnread b f k w _ _ _ _ s)⟩
  | jt | jf => exact hmap ⟨_, rfl, congrArg complete (jumpWhen_withUnread b f k w _ _ _ s)⟩
  | inp dst => exact hmap (execInp_withUnread b f k w dst s)
  | arb a => exact hmap (execArb_withUnread b f k w a s)
  | out a => exact execOut_withUnread_mlen b f k w a s
  | halt => exact execHalt_withUnread_mlen b f k w s

/-- An instruction has one and the same effect whatever the unread fields hold. -/
theorem exec_withUnread {i : Instr} {s t : State} (h : exec i s = .next t) :
    ∃ e n, t = Effect.apply e n s ∧ exec i (withUnread b f k w s) = .next (e.apply n (withUnread b f k w s)) := by
  obtain ⟨e, he, -⟩ := exec_effect i s
  obtain ⟨n, -, -, hs⟩ := he s (Agree.refl s)
  obtain ⟨m, -, -, hu⟩ := he (withUnread b f k w s) ⟨rfl, rfl, rfl, rfl, rfl, fun _ => rfl⟩
  obtain ⟨t', u', ht', hu', hlen⟩ := exec_withUnread_mlen b f k w i s
  rw [hs] at h ht'
  rw [hu] at hu'
  cases h
  cases ht'
  cases hu'
  rw [Effect.apply_mlen, Effect.apply_mlen] at hlen
  exact ⟨e, n, rfl, hlen ▸ hu⟩

end

/-- Settles O29, by what a step writes; an effect on a state with another `HALTED` is the same but for `HALTED`. -/
theorem haltedFlag : Obligations.HaltedFlag := by
  refine ⟨fun s t h hs ht => ?_, fun s t h hs ht => ?_, fun i s t b h => ?_⟩
  · obtain ⟨-, ws, rfl⟩ | ⟨hkeep, -⟩ | ⟨i, hrun, hw⟩ := step_writes h
    · cases ht
    · simp [hkeep.halted, hs] at ht
    · obtain ⟨rfl, -⟩ := hw.halted.resolve_left (by simp [hs, ht])
      exact hrun
  · obtain ⟨hl, -⟩ | ⟨hkeep, -⟩ | ⟨i, -, hw⟩ := step_writes h
    · exact hl
    · simp [hkeep.halted, hs] at ht
    · obtain ⟨-, hset⟩ := hw.halted.resolve_left (by simp [hs, ht])
      simp [hset] at ht
  · obtain ⟨e, n, rfl, hu⟩ := exec_withUnread b s.faulted s.faultKind s.out h
    exact ⟨_, hu, by cases e <;> rfl⟩

/-- Settles O30, by what a step writes; an effect on a state with other fault registers is the same but for these. -/
theorem faultedFlag : Obligations.FaultedFlag := by
  refine ⟨fun s t h hne => ?_, fun i s t b k h => ?_⟩
  · obtain ⟨hl, ws, rfl⟩ | ⟨-, ⟨hf, hk⟩ | ⟨hb, k, n, hk, hg, rfl⟩⟩ | ⟨i, -, hw⟩ := step_writes h
    · exact .inl ⟨hl, rfl, rfl⟩
    · simp [hf, hk] at hne
    · exact .inr ⟨k, hk, hb, _, h, hg.1, rfl⟩
    · simp [hw.faulted, hw.faultKind] at hne
  · obtain ⟨e, n, rfl, hu⟩ := exec_withUnread s.halted b k s.out h
    exact ⟨_, hu, by cases e <;> rfl⟩

/-- Settles O31, by what a step writes; an effect on a state with another `OUT` is the same but for `OUT`. -/
theorem outputRegister : Obligations.OutputRegister := by
  refine ⟨fun s t h hne => ?_, fun i s t w h => ?_⟩
  · obtain ⟨hl, ws, rfl⟩ | ⟨hkeep, -⟩ | ⟨i, hrun, hw⟩ := step_writes h
    · exact .inl ⟨hl, rfl⟩
    · exact absurd hkeep.out hne
    · obtain ⟨a, rfl, hout⟩ := hw.out.resolve_left hne
      exact .inr ⟨a, hrun, hout⟩
  · obtain ⟨e, n, rfl, hu⟩ := exec_withUnread s.halted s.faulted s.faultKind w h
    exact ⟨_, hu, by cases e <;> rfl⟩

/-! ## Reset and `STATUS` -/

/-- Settles O23, by the values themselves. -/
theorem resetValues : Obligations.ResetValues :=
  ⟨rfl, rfl, rfl, rfl, rfl, rfl, rfl, rfl, rfl, fun _ => rfl, rfl⟩

/-- From bit 2 on `STATUS` holds the code of `FAULT_KIND` at bits 6:4 and 0 elsewhere (10_state R41). -/
theorem getLsbD_statusWord {s : State} {i : Nat} (hi : 2 ≤ i) :
    (statusWord s).getLsbD i = (decide (4 ≤ i) && (faultCode s.faultKind).getLsbD (i - 4)) := by
  unfold statusWord
  have hplace : i - 1 - 1 - 2 = i - 4 := by omega
  rw [BitVec.getLsbD_append, if_neg (by omega), BitVec.getLsbD_append, if_neg (by omega), BitVec.getLsbD_append,
    BitVec.getLsbD_append, hplace]
  by_cases h4 : 4 ≤ i
  · rw [if_neg (by omega)]
    by_cases h7 : i - 4 < 3
    · simp [h4, h7]
    · simp [h7, BitVec.getLsbD_of_ge _ _ (not_lt.mp h7)]
  · simp [h4, show i - 1 - 1 < 2 by omega]

theorem inspectRegister_reserved {r : Nat} (s : State) (hr : 4 ≤ r) : inspectRegister r s = none := by
  obtain ⟨k, rfl⟩ := Nat.exists_eq_add_of_le' hr
  rfl

/-- Settles O32: the two flags are the two lowest bits, and every field above them is read off bit by bit. -/
theorem statusLayout : Obligations.StatusLayout := by
  refine ⟨fun s => ⟨?_, ?_, ?_, ?_, ?_, rfl, rfl, rfl, rfl, fun r => inspectRegister_reserved s⟩, rfl⟩
  · rw [statusWord, BitVec.getLsbD_append, if_pos (by omega)]
    simp
  · rw [statusWord, BitVec.getLsbD_append, if_neg (by omega), BitVec.getLsbD_append, if_pos (by omega)]
    simp
  · refine BitVec.eq_of_getLsbD_eq fun i hi => ?_
    rw [BitVec.getLsbD_extractLsb', getLsbD_statusWord (by omega)]
    simp
    omega
  · refine BitVec.eq_of_getLsbD_eq fun i hi => ?_
    rw [BitVec.getLsbD_extractLsb', getLsbD_statusWord (by omega)]
    simp [hi]
  · refine BitVec.eq_of_getLsbD_eq fun i hi => ?_
    rw [BitVec.getLsbD_extractLsb', getLsbD_statusWord (by omega), BitVec.getLsbD_of_ge _ _ (by omega)]
    simp

end Sys2Proof.Machine
end

section
/-! PROOFS. Steps and the host (60_exceptions, 70_reset): the step of a decoded instruction, the host's operations, and
what a stop delivers. -/

namespace Sys2Proof.Machine

/-! ## The step of a decoded instruction -/

/-- Where the words at `IP` decode to a well-formed instruction that lies in the memory, an instruction step is that
instruction's (30_encoding R112). -/
theorem stepInstr_of_decode {s : State} {i : Instr} {rest : List Word}
    (hdec : decode (wordsAt s s.ip.toInt 4) = .ok (i, rest)) (hwf : i.wellFormed = true)
    (ha : ∀ j : Nat, j < i.length → Accessible s (s.ip.toInt + j)) :
    stepInstr s = exec i (s.withMlen (max s.mlen (s.ip.toInt.toNat + i.length))) := by
  obtain ⟨hd, hh, rfl⟩ := decode_wordsAt hdec
  rw [toInstr_length] at ha ⊢
  have h0 : Accessible s s.ip.toInt := by simpa using ha 0 (Nat.succ_pos _)
  have hgood : hd.badTarget = false := by simpa [toInstr_wellFormed] using hwf
  rw [stepInstr, fetchInstr_ok h0 hh hgood ha]

/-- Settles O34: taking the host's move changes nothing that the fetch reads. -/
theorem stepRunsTheDecodedInstruction : Obligations.StepRunsTheDecodedInstruction := by
  intro s i rest ho hb hdec hwf ha
  have hwords : wordsAt (takeMove s) (takeMove s).ip.toInt 4 = wordsAt s s.ip.toInt 4 := by simp [wordsAt]
  have hacc : ∀ j : Nat, j < i.length → Accessible (takeMove s) ((takeMove s).ip.toInt + j) := fun j hj => by
    rw [takeMove_ip]
    exact (agree_takeMove s).accessible.mp (ha j hj)
  rw [step_busy ho hb, stepInstr_of_decode (hwords ▸ hdec) hwf hacc, takeMove_mlen, takeMove_ip]
  rfl

/-! ## A jump to itself -/

/-- If an instruction step only ever lengthens the memory, the invocation never stops. -/
theorem neverStops_of_stepInstr_withMlen {s : State} (hb : s.busy = true)
    (h : ∀ n, ∃ m, stepInstr (s.withMlen n) = .next (s.withMlen m)) : NeverStops s := by
  have hrun (n : Nat) : ∀ k, runUntilStop n (s.withMlen k) = none := by
    induction n with
    | zero => exact fun k => runUntilStop_zero_busy hb
    | succ n ih =>
      intro k
      obtain ⟨m, hm⟩ := h k
      rw [runUntilStop_succ_busy (s := s.withMlen k) n hb hm]
      exact ih m
  exact fun n => hrun n s.mlen

/-- Settles O47: each step jumps back to `IP`, and changes nothing that the next step reads. -/
theorem jumpToItselfNeverStops : Obligations.JumpToItselfNeverStops := by
  intro s x rest hb ha hjump
  obtain ⟨i, hdec, hwf, hlen, htaken⟩ : ∃ i, decode (wordsAt s s.ip.toInt 4) = .ok (i, rest) ∧ i.wellFormed = true ∧
      i.length = 3 ∧ ((i = .jt ⟨.immediate, x⟩ ⟨.immediate, s.ip⟩ ∧ x.toInt ≠ 0) ∨
        (i = .jf ⟨.immediate, x⟩ ⟨.immediate, s.ip⟩ ∧ x.toInt = 0)) := by
    obtain ⟨hdec, hx⟩ | ⟨hdec, hx⟩ := hjump
    · exact ⟨_, hdec, rfl, rfl, .inl ⟨rfl, by simpa [← BitVec.toInt_inj] using hx⟩⟩
    · exact ⟨_, hdec, rfl, rfl, .inr ⟨rfl, by simp [hx]⟩⟩
  refine neverStops_of_stepInstr_withMlen hb fun n => ?_
  have hstep := stepInstr_of_decode (s := s.withMlen n) hdec hwf (by rw [hlen]; exact ha)
  rw [hstep]
  obtain ⟨m, -, hexec⟩ := exec_jump_taken (a := ⟨.immediate, x⟩) (b := ⟨.immediate, s.ip⟩)
    (s := (s.withMlen n).withMlen (max n (s.ip.toInt.toNat + i.length))) rfl rfl htaken
  exact ⟨m, hexec⟩

/-! ## The host's operations -/

/-- Every operation but Reset is refused while busy (60_exceptions R230). -/
theorem hostIssue_busy {s : State} {op : HostOp} (hb : s.busy = true) (hop : op ≠ .reset) :
    hostIssue op s = refuse s := by
  cases op with
  | reset => exact absurd rfl hop
  | load | invoke | inspect | inspectMem => simp [hostIssue, hb]

/-- A Load whose preconditions fail is refused (60_exceptions R231). -/
theorem hostIssue_load_refused {s : State} {p : List Int} (hl : loadable s.memWords p = false) :
    hostIssue (.load p) s = refuse s := by
  simp [hostIssue, hostLoad, hl]

/-- After a Load each address of the program reads as the program's own integer (20_memory R62). -/
theorem readCell_loaded_toInt {p : List Int} (s : State) (hp : ∀ x ∈ p, fits64 x = true) {a : Nat} (h : a < p.length) :
    (readCell (loaded (p.map (BitVec.ofInt 64)) s).mem a).toInt = p[a] := by
  obtain ⟨hread, -, -⟩ := loadPlacesTheProgram (p.map (BitVec.ofInt 64)) s
  rw [hread a (by simpa using h), List.getElem_map, toInt_ofInt_of_fits (hp _ (List.getElem_mem h))]

/-- Settles O40: what the preconditions are, and then what a loaded state holds. -/
theorem loadRule : Obligations.LoadRule := by
  refine fun p s => ⟨fun h => ?_, fun hb hp hc => ⟨_, hostIssue_load_accepted hb (loadable_iff.mpr ⟨hp, hc⟩), ?_⟩⟩
  · by_cases hl : loadable s.memWords p = true
    · obtain ⟨hp, hc⟩ := loadable_iff.mp hl
      obtain hb | ⟨x, hx, hfits⟩ | ⟨c, hm, hlt⟩ := h
      · exact hostIssue_busy hb nofun
      · simp [hp x hx] at hfits
      · exact absurd (hc c hm) (not_le.mpr hlt)
    · exact hostIssue_load_refused (Bool.eq_false_iff.mpr hl)
  · obtain ⟨-, hbeyond, hmlen⟩ := loadPlacesTheProgram (p.map (BitVec.ofInt 64)) s
    rw [List.length_map] at hbeyond hmlen
    exact ⟨fun a => readCell_loaded_toInt s hp, hbeyond, hmlen, rfl, rfl, rfl, rfl, rfl, rfl, rfl, rfl, rfl, rfl, rfl⟩

/-- Settles O41: Reset is the Load of the empty program, which keeps the capacity and the host's own fields. -/
theorem resetAtAnyTime : Obligations.ResetAtAnyTime := by
  refine fun s => ⟨_, rfl, fun _ => rfl, rfl, rfl, rfl, rfl, rfl, rfl, rfl, rfl, rfl, rfl,
    fun u hwords hmoves hinbox => ?_⟩
  have hsame : hostReset u = hostReset s := by rw [hostReset, hostReset, loaded, loaded, hwords, hmoves, hinbox]
  exact congrArg hideUnobservable hsame

/-- Settles O39: a busy core refuses, a terminal one answers at once, a Running one starts. -/
theorem invokeRule : Obligations.InvokeRule := by
  refine ⟨fun v s => ⟨fun hb => hostIssue_busy hb nofun, hostIssue_invoke_halted v,
    fun hb hh hf => (hostIssue_invoke_terminal v hb (.inr hf)).trans (by simp [hh, reply]), fun hb hh hf => ?_⟩,
    fun s hb ho => step_busy ho hb⟩
  rw [hostIssue_invoke_idle v hb, hostInvoke_running v hh hf]

/-- Settles O42: an idle core answers with the register or word there is, and refuses where there is none. -/
theorem inspectRule : Obligations.InspectRule := by
  refine fun s => ⟨fun hb r a => ⟨hostIssue_busy hb nofun, hostIssue_busy hb nofun⟩, fun hb => ⟨fun r w h => ?_,
    fun r hr => ?_, fun a ha => ?_, fun a k hk => ?_⟩⟩
  · have hreg : inspectRegister r s = some w := by
      simp only [List.mem_cons, Prod.mk.injEq, List.not_mem_nil, or_false] at h
      obtain ⟨rfl, rfl⟩ | ⟨rfl, rfl⟩ | ⟨rfl, rfl⟩ | ⟨rfl, rfl⟩ := h <;> rfl
    simp [hostIssue, hb, hostInspect, hreg, reply]
  · simp [hostIssue, hb, hostInspect, inspectRegister_reserved s hr, refuse, reply]
  · simp [hostIssue, hb, hostInspectMem, addressFault_none.mpr ha, reply]
  · simp [hostIssue, hb, hostInspectMem, addressFault_some.mpr hk, refuse, reply]

/-- Settles O49: the invocation's first fetch finds the word 0 at address 0, which is no opcode. -/
theorem invokeAfterResetFaults : Obligations.InvokeAfterResetFaults := by
  intro v s hmoves hwords
  have hstart : hostIssue (.invoke v) (hostIssue .reset s) =
      { loaded [] s with inData := v, inValid := true, busy := true } :=
    (hostIssue_invoke_idle v rfl).trans (hostInvoke_running v rfl rfl)
  have hserve : servedOp { loaded [] s with inData := v, inValid := true, busy := true } = none := by
    simp [servedOp, hmoves]
  have hacc : Accessible { loaded [] s with inData := v, inValid := true, busy := true } 0 :=
    ⟨le_rfl, fun c hc => by
      have : c ≠ 0 := by rintro rfl; exact hwords hc
      omega⟩
  rw [hstart]
  obtain ⟨t, ht, -, hfault⟩ := faultsWith_step_of_zero_word hserve rfl hacc rfl
  refine ⟨t, ht, ?_⟩
  rw [hfault]
  simp

end Sys2Proof.Machine
end

section
/-! PROOFS. Invocations and runs (60_exceptions R200 to R207, R223): every stop delivers one outcome, and the run status
after it is the one the outcome says. -/

namespace Sys2Proof.Machine

/-! ## What a stop delivers -/

/-- The core is as the outcome says: its run status, with the value or the fault kind delivered (60_exceptions R201). -/
def StatusSays (t : State) : InvokeOutcome → Prop
  | .produced w => runStatus t = some .running ∧ t.out = w
  | .halted => runStatus t = some .halted
  | .fault k => runStatus t = some .faulted ∧ t.faultKind = k ∧ k ≠ .noFault
  | .needInput => runStatus t = some .running

/-- The core goes on: it is as busy as before and the host was given nothing. -/
def Continues (s t : State) : Prop := t.busy = s.busy ∧ t.hostInbox = s.hostInbox

/-- The core stops with the outcome: the latch and `BUSY` are cleared, the host was given exactly this outcome, and if
the core was Running its status now says the same (60_exceptions R201, R204). -/
structure Stops (s t : State) (o : InvokeOutcome) : Prop where
  idle : t.busy = false
  latchCleared : t.inValid = false
  delivered : t.hostInbox = .outcome o :: s.hostInbox
  status : s.halted = false → s.faulted = false → StatusSays t o

theorem runStatus_running {s : State} (hh : s.halted = false) (hf : s.faulted = false) :
    runStatus s = some .running := by
  simp [runStatus, hh, hf]

theorem runStatus_halted {s : State} (hh : s.halted = true) (hf : s.faulted = false) :
    runStatus s = some .halted := by
  simp [runStatus, hh, hf]

theorem runStatus_faulted {s : State} (hh : s.halted = false) (hf : s.faulted = true) :
    runStatus s = some .faulted := by
  simp [runStatus, hh, hf]

theorem Faulted.stops {s t : State} (h : Faulted s t) : ∃ o, Stops s t o := by
  obtain ⟨k, n, hk, -, rfl⟩ := h
  exact ⟨.fault k, rfl, rfl, rfl, fun hh _ => ⟨runStatus_faulted hh rfl, rfl, hk⟩⟩

/-- An instruction that completes goes on, or stops with its own outcome (60_exceptions R203). -/
theorem Completed.continues_or_stops {i : Instr} {s t : State} (h : Completed i s t) :
    Continues s t ∨ ∃ o, Stops s t o := by
  cases i with
  | add | mul | lt | eq =>
    obtain ⟨_, _, _, _, -, -, -, -, rfl⟩ := h
    exact .inl ⟨rfl, rfl⟩
  | inp =>
    obtain ⟨-, rfl⟩ | ⟨_, _, _, -, -, -, -, -, rfl⟩ := h
    · exact .inr ⟨.needInput, rfl, rfl, rfl, fun hh hf => runStatus_running hh hf⟩
    · exact .inl ⟨rfl, rfl⟩
  | out =>
    obtain ⟨x, _, _, -, -, -, rfl⟩ := h
    exact .inr ⟨.produced x, rfl, rfl, rfl, fun hh hf => ⟨runStatus_running hh hf, rfl⟩⟩
  | jt | jf =>
    obtain ⟨_, _, -, rfl⟩ := h
    exact .inl ⟨rfl, rfl⟩
  | arb =>
    obtain ⟨_, _, _, _, -, -, -, -, rfl⟩ := h
    exact .inl ⟨rfl, rfl⟩
  | halt =>
    obtain ⟨_, -, rfl⟩ := h
    exact .inr ⟨.halted, rfl, rfl, rfl, fun _ hf => runStatus_halted rfl hf⟩

/-- An instruction step goes on or stops with one outcome (60_exceptions R203, R204). -/
theorem stepInstr_continues_or_stops {s t : State} (h : stepInstr s = .next t) : Continues s t ∨ ∃ o, Stops s t o := by
  obtain hf | ⟨i, n, -, -, hc⟩ := stepInstr_next h
  · exact .inr hf.stops
  · obtain hgo | ⟨o, hidle, hlatch, hout, hstatus⟩ := hc.continues_or_stops
    · exact .inl hgo
    · exact .inr ⟨o, hidle, hlatch, hout, hstatus⟩

/-- Settles O37: the core's own step is an instruction step, and taking the host's move gives the host nothing. -/
theorem stopsDeliverOneOutcome : Obligations.StopsDeliverOneOutcome := by
  intro s t ho hb h
  rw [step_busy ho hb] at h
  obtain ⟨hbusy, hinbox⟩ | ⟨o, hstop⟩ := stepInstr_continues_or_stops h
  · exact .inl ⟨by simpa [hb] using hbusy, by simpa using hinbox⟩
  · exact .inr ⟨hstop.idle, hstop.latchCleared, o, by simpa using hstop.delivered⟩

/-- An input that finds no value leaves the state after the host's move and the fetch, stopped with `NeedInput`; its
only other end is a fault (41_io R140). -/
theorem step_inp_needInput {s t : State} {dst : Param} (hrun : RunsInstr s (.inp dst)) (hv : s.inValid = false)
    (h : step s = .next t) (hout : deliveredOutcome t = some .needInput) :
    ∃ n, t = stop .needInput ((takeMove s).withMlen n) := by
  obtain ⟨n, -, -, hexec⟩ := runsInstr_step hrun h
  obtain ⟨_, _, -, -, rfl⟩ | ⟨-, ht⟩ | ⟨_, _, _, hvalid, -⟩ := exec_next hexec
  · cases hout
  · exact ⟨n, ht⟩
  · simp [hv] at hvalid

/-- Settles O44: the suspended core is Running at the input instruction, and Invoke changes only the latch and
`BUSY`. -/
theorem needInputResumes : Obligations.NeedInputResumes := by
  intro s t dst v hl hrun hv h hout _
  obtain ⟨n, rfl⟩ := step_inp_needInput hrun hv h hout
  obtain ⟨-, hb, -⟩ := hrun
  obtain ⟨hh, hf⟩ := hl.busyOnlyRunning hb
  refine ⟨_, hostIssue_invoke_stop v (by simpa using hh) (by simpa using hf), ?_⟩
  simp

/-! ## Whole invocations -/

/-- An invocation has ended: the core is idle and legal, the host was given exactly the outcome, and the run status is
the one it says (60_exceptions R201, R204). -/
structure Ended (s t : State) (o : InvokeOutcome) : Prop where
  legal : LegalState t
  idle : t.busy = false
  delivered : t.hostInbox = .outcome o :: s.hostInbox
  status : StatusSays t o

/-- A legal busy core that stops within `n` instructions has ended its invocation with one outcome: the steps before
the last give the host nothing. -/
theorem ended_of_runUntilStop {n : Nat} {s t : State} (hl : LegalState s) (hb : s.busy = true)
    (h : runUntilStop n s = some t) : ∃ o, Ended s t o := by
  induction n generalizing s with
  | zero =>
    rw [runUntilStop_zero_busy hb] at h
    cases h
  | succ n ih =>
    obtain ⟨u, hu, -⟩ := stepInstr_cases s
    rw [runUntilStop_succ_busy n hb hu] at h
    have hlu := hl.stepInstr hb hu
    obtain ⟨hbusy, hinbox⟩ | ⟨o, hstop⟩ := stepInstr_continues_or_stops hu
    · obtain ⟨o, hend⟩ := ih hlu (hbusy.trans hb) h
      exact ⟨o, hend.legal, hend.idle, hinbox ▸ hend.delivered, hend.status⟩
    · rw [runUntilStop_idle n hstop.idle] at h
      cases h
      obtain ⟨hh, hf⟩ := hl.busyOnlyRunning hb
      exact ⟨o, hlu, hstop.idle, hstop.delivered, hstop.status hh hf⟩

/-- A core in a terminal status ends an invocation at once, with the outcome of its status (60_exceptions R219). -/
theorem ended_of_terminal {s : State} (hl : LegalState s) (hb : s.busy = false)
    (hterm : s.halted = true ∨ s.faulted = true) :
    Ended s (reply (.outcome (if s.halted then .halted else .fault s.faultKind)) s)
      (if s.halted then .halted else .fault s.faultKind) := by
  refine ⟨hl.reply _, hb, rfl, ?_⟩
  cases hh : s.halted with
  | true =>
    have hf : s.faulted = false := Bool.eq_false_iff.mpr fun hf => hl.notBothFlags ⟨hh, hf⟩
    exact runStatus_halted (by simpa using hh) (by simpa using hf)
  | false =>
    have hf : s.faulted = true := hterm.resolve_left (by simp [hh])
    exact ⟨runStatus_faulted (by simpa using hh) (by simpa using hf), rfl, hl.kindWithFault.mp hf⟩

/-- An invocation of a legal idle core that stops has ended with the outcome it returns. -/
theorem ended_of_invokeWithin {n : Nat} {v : Word} {s t : State} {o : InvokeOutcome} (hl : LegalState s)
    (hb : s.busy = false) (h : invokeWithin n v s = some (o, t)) : Ended s t o := by
  obtain ⟨hrun, hout⟩ := invokeWithin_eq_some.mp h
  obtain ⟨o', hend⟩ : ∃ o', Ended s t o' := by
    by_cases hterm : s.halted = true ∨ s.faulted = true
    · rw [← hostIssue_invoke_idle v hb, hostIssue_invoke_terminal v hb hterm,
        runUntilStop_idle n (by simpa using hb)] at hrun
      cases hrun
      exact ⟨_, ended_of_terminal hl hb hterm⟩
    · obtain ⟨hh, hf⟩ : s.halted = false ∧ s.faulted = false := by simpa using hterm
      rw [hostInvoke_running v hh hf] at hrun
      obtain ⟨o', hend⟩ := ended_of_runUntilStop (hl.started hh hf v) rfl hrun
      exact ⟨o', hend.legal, hend.idle, hend.delivered, hend.status⟩
  have ho : o' = o := by simpa [deliveredOutcome, hend.delivered] using hout
  exact ho ▸ hend

/-- Settles O45: an invocation that stops has ended, and the codes are the table's. -/
theorem invocationOutcome : Obligations.InvocationOutcome := by
  refine ⟨fun n v s t o hl hb h => ?_, fun w k => ⟨rfl, rfl, rfl, rfl⟩⟩
  obtain ⟨-, hidle, hout, hstatus⟩ := ended_of_invokeWithin hl hb h
  refine ⟨hidle, hout, ?_⟩
  cases o <;> exact hstatus

/-- Settles O46: two cores with one checkpoint run in lockstep. -/
theorem checkpointDeterminesInvocation : Obligations.CheckpointDeterminesInvocation := by
  intro n v s t s' o h hs ht hrun
  obtain ⟨t', hrun', hsame, -, -⟩ := invokeWithin_of_sameCheckpoint h hs ht hrun
  exact ⟨t', hrun', hsame⟩

/-! ## Runs -/

/-- A sequence of invocations of a legal core ends as its last invocation does. -/
theorem ended_of_invocations {s t : State} {os : List InvokeOutcome} {last : InvokeOutcome} (hl : LegalState s)
    (h : Invocations s (os ++ [last]) t) : ∃ u, Ended u t last := by
  induction os generalizing s with
  | nil =>
    obtain _ | ⟨⟨hb, n, hinvoke⟩, hrest⟩ := h
    cases hrest
    exact ⟨s, ended_of_invokeWithin hl hb hinvoke⟩
  | cons o os ih =>
    obtain _ | ⟨⟨hb, n, hinvoke⟩, hrest⟩ := h
    exact ih (ended_of_invokeWithin hl hb hinvoke).legal hrest

/-- An accepted Load fits the capacity, so it leaves a legal state (60_exceptions R231). -/
theorem legalState_load {s : State} {p : List Int} (hb : s.busy = false) (hl : loadable s.memWords p = true) :
    LegalState (hostIssue (.load p) s) := by
  rw [hostIssue_load_accepted hb hl]
  refine legalState_loaded ?_
  obtain ⟨-, hfit⟩ := loadable_iff.mp hl
  cases hm : s.memWords with
  | none => rfl
  | some c => simpa [lengthFits] using hfit c hm

theorem IsRun.ended {program : List Int} {core t : State} {os : List InvokeOutcome} {last : InvokeOutcome}
    (h : IsRun program core os last t) : ∃ u, Ended u t last := by
  obtain ⟨hb, hl, hinvocations, -, -⟩ := h
  exact ended_of_invocations (legalState_load hb hl) hinvocations

theorem runStatus_eq_some {s : State} {r : RunStatus} (h : runStatus s = some r) :
    s.halted = decide (r = .halted) ∧ s.faulted = decide (r = .faulted) := by
  unfold runStatus at h
  split at h <;> cases h
  all_goals exact ⟨by assumption, by assumption⟩

/-- Settles O54: a run starts with an accepted Load and ends with its last invocation. -/
theorem runsEnd : Obligations.RunsEnd := by
  refine fun program core t os => ⟨fun last h => ?_, fun h => ?_, fun k h => ?_⟩
  · obtain ⟨u, -, hidle, hout, -⟩ := h.ended
    obtain ⟨hb, hl, -⟩ := h
    obtain ⟨hfits, hlen⟩ := loadable_iff.mp hl
    exact ⟨hb, hfits, hlen, hidle, by simp [deliveredOutcome, hout]⟩
  · obtain ⟨u, -, -, -, hstatus⟩ := IsRun.ended h
    exact runStatus_eq_some hstatus
  · obtain ⟨u, -, -, -, hstatus, hkind, -⟩ := h.ended
    obtain ⟨hh, hf⟩ := runStatus_eq_some hstatus
    exact ⟨hh, hf, hkind⟩

end Sys2Proof.Machine
end

section
/-! PROOFS. Several cores and their networks (60_exceptions R240 to R244). -/

namespace Sys2Proof.Machine

/-! ## Isolated cores -/

/-- The state a step answers; that it answers one is `step_eq_next`. -/
def nextState (s : State) : State :=
  match step s with
  | .next t => t
  | .fault _ => s
  | .refused _ => s

theorem step_eq_next (s : State) : step s = .next (nextState s) := by
  obtain ⟨t, h⟩ := stepAlwaysAnswers s
  simp [nextState, h]

/-- A step of core `k` puts its next state in its place and touches nothing else (60_exceptions R240). -/
theorem stepOfCore_eq (k : Nat) (cores : List State) : stepOfCore k cores = .next (cores.modify k nextState) := by
  rw [List.modify_eq_set_getElem?, stepOfCore]
  cases cores[k]? with
  | none => rfl
  | some core => simp [step_eq_next]

/-- Settles O52: steps are changes at two different places of a list. -/
theorem coresAreIsolated : Obligations.CoresAreIsolated := by
  intro j k cores after hjk h
  rw [stepOfCore_eq] at h
  cases h
  refine ⟨List.getElem?_modify_ne nextState cores hjk.symm, fun s hs => ⟨nextState s, step_eq_next s, ?_⟩,
    _, _, stepOfCore_eq j cores, stepOfCore_eq j _, ?_⟩
  · rw [List.getElem?_modify_eq, hs]
    rfl
  · rw [stepOfCore_eq, List.modify_modify_ne nextState nextState cores hjk]

/-! ## Networks -/

/-- Settles O55: each phase lies between the two ends, and so is a Word; the first core's refused Load ends the
trial. -/
theorem networkPhasesAndLoads : Obligations.NetworkPhasesAndLoads := by
  refine ⟨fun low high hle => ?_, fun n memWords program phase s0 phases hl => ?_⟩
  · have hlen : (networkPhases low high).length = (high.toInt - low.toInt + 1).toNat := by
      simp [networkPhases, networkSize]
    refine ⟨by omega, fun k hk => ?_⟩
    have hlow := (fits64_iff _).mp (fits64_toInt low)
    have hhigh := (fits64_iff _).mp (fits64_toInt high)
    have hfits : fits64 (low.toInt + k) = true := (fits64_iff _).mpr (by omega)
    simp [networkPhases, toInt_ofInt_of_fits hfits]
  · simp [trial, loadCores, hl]

end Sys2Proof.Machine
end

section
/-! PROOFS. The signals (60_exceptions R234): one pulse at a time they realise Load, Invoke, Reset and Inspect. -/

namespace Sys2Proof.Machine

/-! ## Load: one clear, then the words in any order -/

/-- A word write within the memory makes `MLEN` cover its address (60_exceptions R234). -/
theorem signalWrite_mlen {s : State} {a : Nat} (v : Word) (ha : inCapacity s.memWords a = true) :
    (signalWrite a v s).mlen = max s.mlen (a + 1) := by
  rw [signalWrite, if_pos ha, extend_eq_max]
  rfl

theorem inCapacity_of_lt {memWords : Option Nat} {n a : Nat} (hfit : ∀ c, memWords = some c → n ≤ c) (ha : a < n) :
    inCapacity memWords a = true := by
  cases memWords with
  | none => rfl
  | some c => exact decide_eq_true (ha.trans_le (hfit c rfl))

/-- The core is being loaded with the words: it is as the Load will leave it but for memory and `MLEN`, which hold
nothing beyond the program. -/
structure Loading (ws : List Word) (s : State) (c : Clocked) : Prop where
  frame : c.core = { loaded ws s with mem := c.core.mem, mlen := c.core.mlen }
  canonical : c.core.mem.wf = true
  mlen_le : c.core.mlen ≤ ws.length
  beyond : ∀ a, ws.length ≤ a → readCell c.core.mem a = 0
  outcome : c.outcome = 0

/-- The program's word at the address is in place, and `MLEN` covers it. -/
def InPlace (ws : List Word) (c : Clocked) (a : Nat) : Prop :=
  a < c.core.mlen ∧ readCell c.core.mem a = ws.getD a 0

/-- The cycle writes one of the program's words and does nothing else. -/
def WritesWordOf (ws : List Word) (x : Inputs) : Prop :=
  Raises x false false false true ∧ ws[x.ldAddr.toNat]? = some x.ldData

section
variable {ws : List Word} {s : State} {c : Clocked}

theorem Loading.idle (h : Loading ws s c) : c.core.busy = false := by rw [h.frame]; rfl

theorem Loading.memWords (h : Loading ws s c) : c.core.memWords = s.memWords := by rw [h.frame]; rfl

/-- The clearing cycle begins the Load (60_exceptions R234, 70_reset R260). -/
theorem loading_ldClear {x : Inputs} (hb : c.core.busy = false) (hx : Raises x false false true false) :
    Loading ws c.core (clockEdge x c) := by
  obtain ⟨hr, hs, hc, -⟩ := hx
  have hedge : clockEdge x c = ⟨loaded [] c.core, false, 0⟩ := by simp [clockEdge, hr, hs, hc, hb]
  rw [hedge]
  exact ⟨rfl, rfl, Nat.zero_le _, fun _ _ => rfl, rfl⟩

variable (hfit : ∀ n, s.memWords = some n → ws.length ≤ n)
include hfit

/-- A cycle that writes a word of the program goes on with the Load: the word is in place, and those that were stay
there. -/
theorem Loading.write (h : Loading ws s c) {x : Inputs} (hx : WritesWordOf ws x) :
    Loading ws s (clockEdge x c) ∧ InPlace ws (clockEdge x c) x.ldAddr.toNat ∧
      ∀ a, InPlace ws c a → InPlace ws (clockEdge x c) a := by
  obtain ⟨⟨hr, hs, hc, hw⟩, hword⟩ := hx
  obtain ⟨hlt, hget⟩ := List.getElem?_eq_some_iff.mp hword
  have hget : ws.getD x.ldAddr.toNat 0 = x.ldData := by rw [List.getD_eq_getElem _ _ hlt, hget]
  have hcap : inCapacity c.core.memWords x.ldAddr.toNat = true := h.memWords ▸ inCapacity_of_lt hfit hlt
  have hmlen := signalWrite_mlen x.ldData hcap
  have hread (a : Nat) := readCell_signalWrite x.ldAddr.toNat a x.ldData h.canonical hcap
  have hle := h.mlen_le
  rw [clockEdge_ldWe hr hs hc hw h.idle]
  refine ⟨⟨?_, signalWrite_wf _ _ h.canonical, ?_, fun a ha => ?_, h.outcome⟩, ⟨?_, ?_⟩,
    fun a ⟨hcover, hplace⟩ => ⟨?_, ?_⟩⟩
  · rw [signalWrite_frame, h.frame]
  · simp only [hmlen]
    omega
  · rw [hread, if_neg (by omega), h.beyond a ha]
  · simp only [hmlen]
    omega
  · rw [hread, if_pos rfl, hget]
  · simp only [hmlen]
    omega
  · rw [hread]
    split
    · next heq => rw [heq, hget]
    · exact hplace

/-- After cycles that each write a word of the program, every word that one of them wrote is in place. -/
theorem Loading.writes (h : Loading ws s c) {xs : List Inputs} (hxs : ∀ x ∈ xs, WritesWordOf ws x) :
    Loading ws s (clockEdges xs c) ∧
      ∀ a, (InPlace ws c a ∨ ∃ x ∈ xs, x.ldAddr.toNat = a) → InPlace ws (clockEdges xs c) a := by
  induction xs generalizing c with
  | nil => exact ⟨h, fun a ha => ha.resolve_right (by simp)⟩
  | cons x xs ih =>
    obtain ⟨hload, hwritten, hkept⟩ := h.write hfit (hxs x List.mem_cons_self)
    obtain ⟨hload', hplaces⟩ := ih hload fun y hy => hxs y (List.mem_cons_of_mem _ hy)
    refine ⟨hload', fun a ha => hplaces a ?_⟩
    obtain hplace | ⟨y, hy, rfl⟩ := ha
    · exact .inl (hkept a hplace)
    · obtain rfl | hy := List.mem_cons.mp hy
      · exact .inl hwritten
      · exact .inr ⟨y, hy, rfl⟩

omit hfit

/-- Once every word is in place the Load is done: canonical memory is told by what it reads. -/
theorem Loading.done (h : Loading ws s c) (hall : ∀ a < ws.length, InPlace ws c a) : c.core = loaded ws s := by
  obtain ⟨-, hbeyond, -⟩ := loadPlacesTheProgram ws s
  have hmem : c.core.mem = (loaded ws s).mem := memory_ext h.canonical (cellsFrom_wf 0 ws) fun a => by
    by_cases ha : a < ws.length
    · rw [(hall a ha).2, loaded_mem, readCell_cellsFrom]
      simp
    · rw [h.beyond a (by omega), hbeyond a (by omega)]
  have hmlen : c.core.mlen = (loaded ws s).mlen := by
    refine le_antisymm h.mlen_le ?_
    by_contra hlt
    obtain ⟨hcover, -⟩ := hall c.core.mlen (not_le.mp hlt)
    exact lt_irrefl _ hcover
  rw [h.frame, hmem, hmlen]

end

/-- A clearing cycle and cycles that write the program's words in any order are Load (60_exceptions R234). -/
theorem clockEdges_load {c : Clocked} {clear : Inputs} {writes : List Inputs} {ws : List Word}
    (hb : c.core.busy = false) (hl : loadable c.core.memWords (ws.map BitVec.toInt) = true)
    (hclear : Raises clear false false true false) (hwrites : ∀ x ∈ writes, WritesWordOf ws x)
    (hcover : ∀ a < ws.length, ∃ x ∈ writes, x.ldAddr.toNat = a) :
    (clockEdges (clear :: writes) c).core = hostIssue (.load (ws.map BitVec.toInt)) c.core ∧
      (clockEdges (clear :: writes) c).outcome = 0 := by
  have hfit : ∀ n, c.core.memWords = some n → ws.length ≤ n := by simpa using (loadable_iff.mp hl).2
  obtain ⟨hload, hplaces⟩ := (loading_ldClear hb hclear).writes hfit hwrites
  have hwords : (ws.map BitVec.toInt).map (BitVec.ofInt 64) = ws := by simp [List.map_map, Function.comp_def]
  rw [hostIssue_load_accepted hb hl, hwords]
  exact ⟨hload.done fun a ha => hplaces a (.inr (hcover a ha)), hload.outcome⟩

/-! ## Invoke, Reset and inspection -/

theorem signalStop_core (before : BitVec 2) (t : State) : (signalStop before t).core = t := by
  unfold signalStop
  split
  · rfl
  · split <;> rfl

/-- `done` rises with a stop (60_exceptions R234). -/
theorem signalStop_done (before : BitVec 2) (t : State) : (signalStop before t).done = !t.busy := by
  unfold signalStop
  split
  · next h => simp [h]
  · next h => split <;> simp [h]

theorem signalStop_outcome {before : BitVec 2} {t : State} {o : InvokeOutcome} (hb : t.busy = false)
    (ho : deliveredOutcome t = some o) : (signalStop before t).outcome = outcomeCode o := by
  simp [signalStop, hb, ho]

/-- A cycle that raises only `start` on an idle core is Invoke, observed for a stop (60_exceptions R234). -/
theorem clockEdge_start {x : Inputs} {c : Clocked} (hb : c.core.busy = false) (hx : Raises x false true false false) :
    clockEdge x c = signalStop c.outcome (hostIssue (.invoke x.inData) c.core) := by
  obtain ⟨hr, hs, -, -⟩ := hx
  simp [clockEdge, hr, hs, hb, hostIssue_invoke_idle]

/-- The core is idle after an Invoke exactly where it was in a terminal status (60_exceptions R202). -/
theorem hostIssue_invoke_busy {s : State} (v : Word) (hb : s.busy = false) :
    (hostIssue (.invoke v) s).busy = false ↔ s.halted = true ∨ s.faulted = true := by
  by_cases hterm : s.halted = true ∨ s.faulted = true
  · simp [hostIssue_invoke_terminal v hb hterm, hb, hterm]
  · obtain ⟨hh, hf⟩ : s.halted = false ∧ s.faulted = false := by simpa using hterm
    simp [hostIssue_invoke_idle v hb, hostInvoke_running v hh hf, hterm]

/-- A start of a terminal core shows the code of the outcome its status gives. -/
theorem clockEdge_start_outcome {x : Inputs} {c : Clocked} (hb : c.core.busy = false)
    (hx : Raises x false true false false) (hterm : c.core.halted = true ∨ c.core.faulted = true) :
    (clockEdge x c).outcome = outcomeCode (if c.core.halted then .halted else .fault c.core.faultKind) := by
  rw [clockEdge_start hb hx, hostIssue_invoke_terminal x.inData hb hterm]
  exact signalStop_outcome (by simpa using hb) rfl

/-- `dbg_rdata` of an idle core is Inspect's register (60_exceptions R232). -/
theorem dbgRdata_register {s : State} {r : Nat} (hb : s.busy = false) (hr : r < 4) :
    dbgRdata false (BitVec.ofNat 64 r) s = inspectRegister r s := by
  have hnum : r % 2 ^ 64 % 8 = r := by omega
  simp only [dbgRdata, hb, BitVec.toNat_ofNat, hnum]
  rfl

/-- `dbg_rdata` of an idle core is InspectMem's word (60_exceptions R232). -/
theorem dbgRdata_memory {s : State} {a : BitVec 64} (hb : s.busy = false) (ha : Accessible s a.toNat) :
    dbgRdata true a s = some (readCell s.mem a.toNat) := by
  simp [dbgRdata, hb, addressFault_none.mpr ha]

/-- Settles O53, pulse by pulse; a busy core looks at no input but `rst`. -/
theorem signalsRealiseLoadAndInvoke : Obligations.SignalsRealiseLoadAndInvoke := by
  refine ⟨fun c clear writes ws => clockEdges_load, fun c x hb hx => ⟨?_, ?_, fun hh => ?_, fun hh hf => ?_⟩,
    fun c x ⟨hr, _⟩ => ?_, fun c x y hb hx hy => ?_,
    fun s hb => ⟨fun r => dbgRdata_register hb, fun a => dbgRdata_memory hb⟩⟩
  · rw [clockEdge_start hb hx, signalStop_core]
  · rw [clockEdge_start hb hx, signalStop_done, Bool.not_eq_true', hostIssue_invoke_busy x.inData hb]
  · simpa [hh] using clockEdge_start_outcome hb hx (.inl hh)
  · simpa [hh] using clockEdge_start_outcome hb hx (.inr hf)
  · simp [clockEdge, hr, hostIssue]
  · simp [clockEdge, hx, hy, hb]

end Sys2Proof.Machine
end
